-- ==== Sys2Proof/Word.lean ====
section
/-!
DEFINITION. Word.lean: the widths of rule R11, the four packet types of rule R18, and the words that the
environment can put on the ports of the block (rules R110, R111, R119: the port is the opcode).
-/

namespace Sys2Proof

/-- A byte (rule R14). -/
abbrev Byte := BitVec 8

/-- The 32 bits of a `seq` field (rules R11, R104). -/
abbrev SeqBits := BitVec 32

/-- A 16-bit unsigned field or sum: `payload_length`, `checksum`, `P.SUM`, `U.SUM` (rule R11). -/
abbrev Half := BitVec 16

/-- A 17-bit byte counter: `P.CNT`, `U.CNT` (rules R35, R37). -/
abbrev Count := BitVec 17

/-- The 72-bit header word `H` of rule R101: byte at offset 0 most significant. -/
abbrev HeaderWord := BitVec 72

/-- The four packet types (rules R10, R18). -/
inductive PacketType where
  | data
  | metadata
  | ack
  | fin
deriving DecidableEq, Repr

/-- What the environment offers, one word per port, as rules R110, R111 and R119 lay it out.
`rxDatagram` is not one beat: it is the whole wire form of one datagram of at least nine bytes, the header word
and every byte after it, which the rows `HDR.*` of the opcode table stand for. -/
inductive PortWord where
  /-- `tx_cmd`: the command beat `{type[1:0], seq[31:0]}` (rule R111). -/
  | txCmd (w : BitVec 34)
  /-- `tx_pl`: the stream beat `{keep, last, data[7:0]}` (rule R110). -/
  | txPl (w : BitVec 10)
  /-- `tx_out`: the one thing the sink drives, `tx_out_ready` (rule R46). -/
  | txOut (ready : BitVec 1)
  /-- `tx_err_ack`: the one-bit pulse (rule R111). -/
  | txErrAck (w : BitVec 1)
  /-- `rx_in`: the stream beat `{keep, last, data[7:0]}` (rule R110). -/
  | rxIn (w : BitVec 10)
  /-- `rx_rd`: the 16-bit index `rx_rd_addr` (rule R111). -/
  | rxRd (w : BitVec 16)
  /-- `rx_release`: the one-bit pulse (rule R111). -/
  | rxRelease (w : BitVec 1)
  /-- `rst`: the one-bit synchronous reset (rule R44). -/
  | rst (w : BitVec 1)
  /-- `rx_in`: a whole datagram, header word and following bytes, last byte marked `last` (rules R101, R118). -/
  | rxDatagram (h : HeaderWord) (rest : List Byte)
deriving DecidableEq, Repr

end Sys2Proof
end

