-- ==== Sys2Proof/Config.lean ====
section
/-!
DEFINITION. Config.lean: the fixed parameters of rules R7 to R9, the shape of the open parameter `TYPE_CODE`
(rule R10), and the free values of the model (entries U1 and U2 of spec/93), which have no body.
-/

namespace Sys2Proof

/-- `HDR_LEN` (rule R7). -/
abbrev Config.hdrLen : Nat := 9

/-- `MAX_PAYLOAD` (rule R8), also the number of cells of each buffer (rule R42). -/
abbrev Config.maxPayload : Nat := 65535

/-- `CK_MOD` (rule R9): 2^16 - 1, not 2^16. -/
abbrev Config.ckMod : Nat := 65535

/-- `TYPE_CODE` (rule R10): the wire byte of each packet type. A build-time constant of the block; the model
holds it as plain data in State so that every statement can quantify over it, and no event writes it. -/
structure TypeCode where
  data     : Byte
  metadata : Byte
  ack      : Byte
  fin      : Byte
deriving DecidableEq, Repr

/-- The default of rule R10 (decision D2): the order in which the types are listed. -/
def TypeCode.standard : TypeCode := { data := 0x00, metadata := 0x01, ack := 0x02, fin := 0x03 }

/-- `TYPE_CODE` "must be injective (four distinct bytes)" (rule R10). -/
abbrev TypeCode.Injective (tc : TypeCode) : Prop :=
  tc.data ≠ tc.metadata ∧ tc.data ≠ tc.ack ∧ tc.data ≠ tc.fin ∧
  tc.metadata ≠ tc.ack ∧ tc.metadata ≠ tc.fin ∧ tc.ack ≠ tc.fin

/-- FREE VALUE (rule R77, entry U1): the n-th byte that an `RX_READ` outside the read window draws. -/
opaque Config.freeByte : Nat → Byte

/-- FREE VALUE (rule R52, entry U2): what TXBUF cell `i` holds when nothing has written it. -/
opaque Config.txbufPowerUp : Nat → Byte

/-- FREE VALUE (rule R52, entry U2): what RXBUF cell `i` holds when nothing has written it. -/
opaque Config.rxbufPowerUp : Nat → Byte

end Sys2Proof
end

