-- ==== Sys2Proof/Syntax.lean ====
section
/-!
DEFINITION. Syntax.lean: one constructor per row of spec/opcode_table.json (rule R119): the five wire headers,
each standing for one whole received datagram, and the eight events of the two machines.
-/

namespace Sys2Proof

/-- The operations of the block. For the five header rows the operands are the header fields of rule R100 and
`rest`, every byte of the datagram after the header (payload, and trailing bytes if there are any; it may also
be shorter than the declared length). -/
inductive Instr where
  /-- `HDR.DATA`: a datagram whose type byte is `TYPE_CODE(DATA)` (rules R101, R103, R180). -/
  | hdrData (seq : SeqBits) (len ck : Half) (rest : List Byte)
  /-- `HDR.METADATA`: a datagram whose type byte is `TYPE_CODE(METADATA)`. -/
  | hdrMetadata (seq : SeqBits) (len ck : Half) (rest : List Byte)
  /-- `HDR.ACK`: a datagram whose type byte is `TYPE_CODE(ACK)`. -/
  | hdrAck (seq : SeqBits) (len ck : Half) (rest : List Byte)
  /-- `HDR.FIN`: a datagram whose type byte is `TYPE_CODE(FIN)`. -/
  | hdrFin (seq : SeqBits) (len ck : Half) (rest : List Byte)
  /-- `HDR.UNKNOWN`: a datagram whose type byte `t` is none of the four codes (rules R112 (a), R182). -/
  | hdrUnknown (t : Byte) (seq : SeqBits) (len ck : Half) (rest : List Byte)
  /-- `TX_CMD(type, seq)` (rule R155). -/
  | txCmd (type : PacketType) (seq : SeqBits)
  /-- `TX_PL_BEAT(data, keep, last)` (rule R156). -/
  | txPlBeat (keep last : Bool) (data : Byte)
  /-- `TX_OUT_BEAT`: no input operands (rule R161). -/
  | txOutBeat
  /-- `TX_ERR_ACK` (rule R158). -/
  | txErrAck
  /-- `RX_BEAT(data, keep, last)` (rule R186). -/
  | rxBeat (keep last : Bool) (data : Byte)
  /-- `RX_READ(a)` (rule R195). -/
  | rxRead (addr : BitVec 16)
  /-- `RX_RELEASE` (rule R197). -/
  | rxRelease
  /-- `RESET` (rule R250). -/
  | reset
deriving DecidableEq, Repr

end Sys2Proof
end

