-- ==== Sys2Proof/Decode.lean ====
section
/-!
DEFINITION. Decode.lean: byte-order helpers (rules R15, R104), the type codes and classes (rules R10, R103), the
decoder from the word on a port to the operation it stands for (rules R101, R110, R111, R119), and after it the
encoder, written from the same layouts.
-/

namespace Sys2Proof

/-! ## Byte order and signed numbers (rule R15) -/

/-- `be16(b0, b1) = {b0, b1}` (rule R15). -/
def be16 (b0 b1 : Byte) : Half := b0 ++ b1

/-- `be32(b0, b1, b2, b3) = {b0, b1, b2, b3}` (rule R15). -/
def be32 (b0 b1 b2 b3 : Byte) : SeqBits := b0 ++ b1 ++ b2 ++ b3

/-- `bytes_be16(v) = v[15:8] ++ v[7:0]` (rule R15). -/
def bytesBe16 (v : Half) : List Byte := [v.extractLsb' 8 8, v.extractLsb' 0 8]

/-- `bytes_be32(v) = v[31:24] ++ v[23:16] ++ v[15:8] ++ v[7:0]` (rule R15). -/
def bytesBe32 (v : SeqBits) : List Byte :=
  [v.extractLsb' 24 8, v.extractLsb' 16 8, v.extractLsb' 8 8, v.extractLsb' 0 8]

/-- `sint32(v)` (rules R15, R104): two's complement. -/
def sint32 (v : SeqBits) : Int := if v.getLsbD 31 then (v.toNat : Int) - 2 ^ 32 else v.toNat

/-- `twos32(n)` (rules R104, R151): the 32 bits that stand for `n`. -/
def twos32 (n : Int) : SeqBits := BitVec.ofInt 32 n

/-- `{v[23:0], b}`: shifting a byte into a 32-bit register (rule R105). -/
def shiftIn32 (v : SeqBits) (b : Byte) : SeqBits := v.extractLsb' 0 24 ++ b

/-- `{v[7:0], b}`: shifting a byte into a 16-bit register (rules R106, R107). -/
def shiftIn16 (v : Half) (b : Byte) : Half := v.extractLsb' 0 8 ++ b

/-! ## Type codes and classes -/

/-- `TYPE_CODE(t)` (rules R10, R103). -/
def TypeCode.code (tc : TypeCode) : PacketType → Byte
  | .data => tc.data
  | .metadata => tc.metadata
  | .ack => tc.ack
  | .fin => tc.fin

/-- The type `t` with `TYPE_CODE(t) = b`, if there is one (rules R103, R182). -/
def TypeCode.typeOf? (tc : TypeCode) (b : Byte) : Option PacketType :=
  if b = tc.data then some .data
  else if b = tc.metadata then some .metadata
  else if b = tc.ack then some .ack
  else if b = tc.fin then some .fin
  else none

/-- The class of a type on the ports, fixed whatever `TYPE_CODE` is (rule R103). -/
def PacketType.classCode : PacketType → BitVec 2
  | .data => 0
  | .metadata => 1
  | .ack => 2
  | .fin => 3

/-- The type of a class; all four classes are legal (rule R103). -/
def PacketType.ofClass (c : BitVec 2) : PacketType :=
  if c = 0 then .data else if c = 1 then .metadata else if c = 2 then .ack else .fin

/-- A one-bit flag as a Bool. -/
def bitFlag (b : BitVec 1) : Bool := b == 1#1

/-- A Bool as a one-bit flag. -/
def flagBit (b : Bool) : BitVec 1 := if b then 1#1 else 0#1

/-! ## The decoder -/

/-- Why a word on a port stands for no operation. -/
inductive DecodeError where
  /-- A one-bit port (`tx_out_ready`, `tx_err_ack`, `rx_release`, `rst`) is 0: no event occurs on it (the rows'
  match and mask, and rule R46). The block does nothing; not unsafe. -/
  | signalLow
deriving DecidableEq, Repr

/-- The row of a header word, selected by its type byte (rules R101, R103, R182); the fallback row only where
none of the four codes matches. -/
def decodeHeader (tc : TypeCode) (h : HeaderWord) (rest : List Byte) : Instr :=
  let t := h.extractLsb' 64 8
  let seq := h.extractLsb' 32 32
  let len := h.extractLsb' 16 16
  let ck := h.extractLsb' 0 16
  match tc.typeOf? t with
  | some .data => .hdrData seq len ck rest
  | some .metadata => .hdrMetadata seq len ck rest
  | some .ack => .hdrAck seq len ck rest
  | some .fin => .hdrFin seq len ck rest
  | none => .hdrUnknown t seq len ck rest

/-- The operation a port word stands for. Total: every stream beat, command beat, index and header decodes (rules
R110 to R112); a one-bit port at 0 is rejected by name. -/
def decodeWord (tc : TypeCode) : PortWord → Except DecodeError Instr
  | .txCmd w => .ok (.txCmd (PacketType.ofClass (w.extractLsb' 32 2)) (w.extractLsb' 0 32))
  | .txPl w => .ok (.txPlBeat (bitFlag (w.extractLsb' 9 1)) (bitFlag (w.extractLsb' 8 1)) (w.extractLsb' 0 8))
  | .txOut r => if bitFlag r then .ok .txOutBeat else .error .signalLow
  | .txErrAck w => if bitFlag w then .ok .txErrAck else .error .signalLow
  | .rxIn w => .ok (.rxBeat (bitFlag (w.extractLsb' 9 1)) (bitFlag (w.extractLsb' 8 1)) (w.extractLsb' 0 8))
  | .rxRd w => .ok (.rxRead w)
  | .rxRelease w => if bitFlag w then .ok .rxRelease else .error .signalLow
  | .rst w => if bitFlag w then .ok .reset else .error .signalLow
  | .rxDatagram h rest => .ok (decodeHeader tc h rest)

/-! ## The encoder -/

/-- The header word `H` of rule R101. -/
def headerWord (t : Byte) (seq : SeqBits) (len ck : Half) : HeaderWord := t ++ seq ++ len ++ ck

/-- The port word of an operation (rules R101, R110, R111). -/
def encodeWord (tc : TypeCode) : Instr → PortWord
  | .hdrData seq len ck rest => .rxDatagram (headerWord (tc.code .data) seq len ck) rest
  | .hdrMetadata seq len ck rest => .rxDatagram (headerWord (tc.code .metadata) seq len ck) rest
  | .hdrAck seq len ck rest => .rxDatagram (headerWord (tc.code .ack) seq len ck) rest
  | .hdrFin seq len ck rest => .rxDatagram (headerWord (tc.code .fin) seq len ck) rest
  | .hdrUnknown t seq len ck rest => .rxDatagram (headerWord t seq len ck) rest
  | .txCmd t seq => .txCmd (t.classCode ++ seq)
  | .txPlBeat keep last b => .txPl (flagBit keep ++ flagBit last ++ b)
  | .txOutBeat => .txOut 1#1
  | .txErrAck => .txErrAck 1#1
  | .rxBeat keep last b => .rxIn (flagBit keep ++ flagBit last ++ b)
  | .rxRead a => .rxRd a
  | .rxRelease => .rxRelease 1#1
  | .reset => .rst 1#1

/-! ## The host's table words -/

/-- The port word of a table word of `nbits` bits. The port is the opcode (rule R119) and a table word does not
name it, so where several rows share a width one port is taken for that width (notes/assumptions/6.md): 1 or 8
bits `rst`, 9 bits `tx_out`, 10 bits `rx_in`, 16 bits `rx_in` where the word fits in ten bits and `rx_rd` where
it does not, 34 or 40 bits `tx_cmd`, 72 bits the header of a datagram whose payload bytes are zeros. -/
def tableWord (nbits w : Nat) : Option PortWord :=
  if nbits = 1 ∨ nbits = 8 then (if w < 2 then some (.rst (BitVec.ofNat 1 w)) else none)
  else if nbits = 9 then (if w < 512 then some (.txOut 1#1) else none)
  else if nbits = 10 then (if w < 1024 then some (.rxIn (BitVec.ofNat 10 w)) else none)
  else if nbits = 16 then
    (if w < 1024 then some (.rxIn (BitVec.ofNat 10 w))
     else if w < 65536 then some (.rxRd (BitVec.ofNat 16 w)) else none)
  else if nbits = 34 ∨ nbits = 40 then (if w < 2 ^ 34 then some (.txCmd (BitVec.ofNat 34 w)) else none)
  else if nbits = 72 then
    (if w < 2 ^ 72 then
      some (.rxDatagram (BitVec.ofNat 72 w) (List.replicate ((BitVec.ofNat 72 w).extractLsb' 16 16).toNat 0))
     else none)
  else none

/-- The operation of a table word under the default `TYPE_CODE`. -/
def decodeTableWord (nbits w : Nat) : Option Instr :=
  match tableWord nbits w with
  | some pw => (decodeWord TypeCode.standard pw).toOption
  | none => none

end Sys2Proof
end

