-- ==== Sys2Proof/WellFormed.lean ====
section
/-!
DEFINITION. WellFormed.lean: which terms of `Instr` stand for a row of the table. Every width is in the types;
what is left to check is that an `HDR.UNKNOWN` header carries none of the four type codes (rule R112 (a)).
-/

namespace Sys2Proof

/-- Well-formed under a given `TYPE_CODE`: the fallback row is used only where the four rows above it do not
match (rules R112 (a), R182). -/
def Instr.wellFormed (tc : TypeCode) : Instr → Bool
  | .hdrUnknown t _ _ _ _ => (tc.typeOf? t).isNone
  | .hdrData _ _ _ _ => true
  | .hdrMetadata _ _ _ _ => true
  | .hdrAck _ _ _ _ => true
  | .hdrFin _ _ _ _ => true
  | .txCmd _ _ => true
  | .txPlBeat _ _ _ => true
  | .txOutBeat => true
  | .txErrAck => true
  | .rxBeat _ _ _ => true
  | .rxRead _ => true
  | .rxRelease => true
  | .reset => true

end Sys2Proof
end

