-- ==== Sys2Proof/Machine/State.lean ====
section
/-!
DEFINITION. Machine/State.lean: everything the spec gives the machine (rules R31 to R43: a model needs no state
beyond these), the static `TYPE_CODE`, and the model's own fields: what the environment offers and what it has
observed.
-/

namespace Sys2Proof.Machine

/-- A payload buffer (rules R42, R70, R71): the cells written since power-up, as (index, byte) pairs with strictly
rising indices. A cell that is not listed holds an unspecified byte (rule R52). -/
abbrev Memory := List Host.Cell

/-- `P.PHASE` (rule R34). -/
inductive PackerPhase where
  | idle
  | load
  | emit
  | err
deriving DecidableEq, Repr

/-- `U.PHASE` (rule R36). -/
inductive UnpackerPhase where
  | recv
  | done
deriving DecidableEq, Repr

/-- `U.STATUS` (rule R40). The reserved code `0b11` is never produced (rule R112 (e)), so it has no constructor. -/
inductive Status where
  | ok
  | malformedShort
  | malformedLength
deriving DecidableEq, Repr

/-- The packer agent (rules R30, R31, R34, R35, R38, R42). -/
structure Packer where
  /-- `P.PHASE`, 2 bits. -/
  phase : PackerPhase
  /-- `P.TYPE`, 2 bits: the class of the packet. -/
  type : PacketType
  /-- `P.SEQ`, 32 bits. -/
  seq : SeqBits
  /-- `P.LEN`, 16 bits. -/
  len : Half
  /-- `P.SUM`, 16 bits. -/
  sum : Half
  /-- `P.CNT`, 17 bits. -/
  cnt : Count
  /-- `P.OVF`, 1 bit. -/
  ovf : Bool
  /-- `TXBUF`, 65535 bytes. -/
  txbuf : Memory
deriving DecidableEq, Repr

/-- The unpacker agent (rules R30, R32, R36, R37, R38, R40, R42). -/
structure Unpacker where
  /-- `U.PHASE`, 1 bit. -/
  phase : UnpackerPhase
  /-- `U.CNT`, 17 bits. -/
  cnt : Count
  /-- `U.TYPE`, 8 bits. -/
  type : Byte
  /-- `U.SEQ`, 32 bits. -/
  seq : SeqBits
  /-- `U.LEN`, 16 bits. -/
  len : Half
  /-- `U.CKW`, 16 bits: the checksum read from the wire. -/
  ckw : Half
  /-- `U.SUM`, 16 bits: the checksum recomputed. -/
  sum : Half
  /-- `U.TRAIL`, 1 bit. -/
  trail : Bool
  /-- `U.STATUS`, 2 bits. -/
  status : Status
  /-- `U.VALID`, 1 bit. -/
  valid : Bool
  /-- `RXBUF`, 65535 bytes. -/
  rxbuf : Memory
deriving DecidableEq, Repr

/-- An output beat on `tx_out`, `{last, data[7:0]}` (rule R111). -/
structure OutBeat where
  last : Bool
  data : Byte
deriving DecidableEq, Repr

/-- What one `RX_READ` returned: the index on `rx_rd_addr` and the byte on `rx_rd_data` (rule R195). -/
structure ReadReply where
  addr : BitVec 16
  data : Byte
deriving DecidableEq, Repr

/-- The state of the block and of the model around it. -/
structure State where
  /-- The packer (rule R30). -/
  p : Packer
  /-- The unpacker (rule R30). -/
  u : Unpacker
  /-- `TYPE_CODE` (rules R10, R87): a build-time constant, held here so that statements quantify over it. -/
  typeCode : TypeCode
  /-- The model's own: what the environment offers on the ports, oldest first. -/
  offers : List PortWord
  /-- The model's own: the beats the wire sink has accepted on `tx_out`, oldest first. -/
  sink : List OutBeat
  /-- The model's own: what the consumer's reads have returned, oldest first. -/
  reads : List ReadReply
  /-- The model's own: how many free bytes have been drawn (rule R77, entry U1). -/
  draws : Nat
deriving DecidableEq, Repr

/-- Why a step stops. -/
inductive Fault where
  /-- Raised by `TX_OUT_BEAT` alone, when `P.CNT - 9` is an index that TXBUF does not have (rules R42, R72). No
  reachable state gets there: rule R53 (c) keeps `P.CNT <= 8 + P.LEN`. Safe: the model stops where the spec says
  nothing. -/
  | noTxbufCell (index : Nat)
deriving DecidableEq, Repr

/-- Why an operation has no meaning. -/
inductive Refusal where
  /-- Raised by a dispatch arm whose operation has no meaning yet; no arm raises it in this model. Safe. -/
  | notModelled (mnemonic : String)
deriving DecidableEq, Repr

/-- The packer's registers after `RESET`, over given buffer contents (rules R49, R52). -/
def Packer.cleared (txbuf : Memory) : Packer :=
  { phase := .idle, type := .data, seq := 0, len := 0, sum := 0, cnt := 0, ovf := false, txbuf := txbuf }

/-- The unpacker's registers after `RESET` or `RX_RELEASE`, over given buffer contents (rules R49, R52, R197). -/
def Unpacker.cleared (rxbuf : Memory) : Unpacker :=
  { phase := .recv, cnt := 0, type := 0, seq := 0, len := 0, ckw := 0, sum := 0, trail := false,
    status := .ok, valid := false, rxbuf := rxbuf }

/-- The machine right after `RESET` (rules R49, R251): registers at their reset values, no buffer cell written,
the default `TYPE_CODE`, nothing offered and nothing observed. -/
def State.reset : State :=
  { p := Packer.cleared [], u := Unpacker.cleared [], typeCode := TypeCode.standard,
    offers := [], sink := [], reads := [], draws := 0 }

end Sys2Proof.Machine
end

