-- ==== Sys2Proof/Machine/Ops.lean ====
section
/-!
DEFINITION. Machine/Ops.lean: the named operations over the buffers and registers: one-byte buffer accesses (rules
R70 to R72, R79), the checksum unit's accumulate step (rule R134), the updates of State, and entering and leaving
the error and result phases (rules R230 to R232), which take the place of exception entry and return.
-/

namespace Sys2Proof.Machine

/-! ## The buffers -/

/-- The byte a cell holds if something has written it. -/
def Memory.find? : Memory → Nat → Option Byte
  | [], _ => none
  | (a, b) :: rest, i => if a = i then some b else Memory.find? rest i

/-- Write one byte (rule R79), keeping the cells in strictly rising order. -/
def Memory.write : Memory → Nat → Byte → Memory
  | [], i, v => [(i, v)]
  | (a, b) :: rest, i, v =>
    if i < a then (i, v) :: (a, b) :: rest
    else if i = a then (i, v) :: rest
    else (a, b) :: Memory.write rest i v

/-- Indices strictly rising from `lo`, all of them cells (rule R42: `0 .. 65534`). -/
def Memory.wfFrom (lo : Nat) : Memory → Bool
  | [] => true
  | (a, _) :: rest => decide (lo ≤ a) && decide (a < Config.maxPayload) && Memory.wfFrom (a + 1) rest

/-- The canonical form of a buffer. -/
def Memory.wf (m : Memory) : Bool := Memory.wfFrom 0 m

/-- `MemRead(TXBUF, i, 1)` (rule R16): a cell that nothing has written holds a free byte (rule R52). -/
def readTxbuf (m : Memory) (i : Nat) : Byte := (m.find? i).getD (Config.txbufPowerUp i)

/-- `MemRead(RXBUF, i, 1)` (rule R16): a cell that nothing has written holds a free byte (rule R52). -/
def readRxbuf (m : Memory) (i : Nat) : Byte := (m.find? i).getD (Config.rxbufPowerUp i)

/-- The string `TXBUF[0 .. n-1]` (rule R53 (h)). -/
def txPayload (m : Memory) (n : Nat) : List Byte := (List.range n).map (readTxbuf m)

/-- The string `RXBUF[0 .. n-1]` (rule R53 (i)). -/
def rxPayload (m : Memory) (n : Nat) : List Byte := (List.range n).map (readRxbuf m)

/-! ## The checksum unit -/

/-- `ck_step(s, b)` (rule R134): a 17-bit sum and one conditional subtraction of the modulus. -/
def ckStep (s : Half) (b : Byte) : Half :=
  let t : BitVec 17 := s.setWidth 17 + b.setWidth 17
  if Config.ckMod ≤ t.toNat then (t - BitVec.ofNat 17 Config.ckMod).setWidth 16 else t.setWidth 16

/-! ## Updates of State -/

/-- Replace the packer. -/
def State.setPacker (s : State) (p : Packer) : State := { s with p := p }

/-- Replace the unpacker. -/
def State.setUnpacker (s : State) (u : Unpacker) : State := { s with u := u }

/-- `emit(tx_out, beat)` (rule R16): the sink accepts one output beat. -/
def State.emitBeat (s : State) (b : OutBeat) : State := { s with sink := s.sink ++ [b] }

/-- The consumer sees one byte on `rx_rd_data`. -/
def State.reply (s : State) (a : BitVec 16) (b : Byte) : State := { s with reads := s.reads ++ [⟨a, b⟩] }

/-- One more free byte has been drawn. -/
def State.drawn (s : State) : State := { s with draws := s.draws + 1 }

/-- Replace what the environment offers. -/
def State.setOffers (s : State) (ws : List PortWord) : State := { s with offers := ws }

/-! ## Entering and leaving the phases in which a condition or a result is held -/

/-- Entry of the unpacker into `DONE` with a verdict (rules R186, R231): nothing else is saved anywhere. -/
def Unpacker.enterDone (u : Unpacker) (st : Status) (valid : Bool) : Unpacker :=
  { u with status := st, valid := valid, phase := .done }

/-- Entry of the packer into `ERR` on PackOverflow (rules R156, R225, R231). -/
def Packer.enterErr (p : Packer) : Packer := { p with phase := .err }

/-- Entry of the packer into `EMIT` at the end of a payload (rule R156). -/
def Packer.enterEmit (p : Packer) : Packer := { p with phase := .emit, cnt := 0 }

/-- Return of the packer from `ERR` (rules R158, R232): only `P.OVF` and the phase are written. -/
def Packer.leaveErr (p : Packer) : Packer := { p with ovf := false, phase := .idle }

/-- Return of the unpacker from `DONE` (rules R197, R232): every register to its reset value, RXBUF kept. -/
def Unpacker.release (u : Unpacker) : Unpacker := Unpacker.cleared u.rxbuf

end Sys2Proof.Machine
end

