-- ==== Sys2Proof/Machine/Control.lean ====
section
/-!
DEFINITION. Machine/Control.lean: `RESET` (rules R49, R52, R250, R252).
-/

namespace Sys2Proof.Machine

/-- `RESET`: every register of both agents to its reset value whatever the phase, the buffers untouched (rules R49,
R52). `TYPE_CODE` is no register (rule R87), and what the environment offers and has seen is not the block's. -/
def execReset (s : State) : Host.Outcome State Fault Refusal :=
  .next ((s.setPacker (Packer.cleared s.p.txbuf)).setUnpacker (Unpacker.cleared s.u.rxbuf))

end Sys2Proof.Machine
end

