-- ==== Sys2Proof/Machine/Flags.lean ====
section
/-!
DEFINITION. Machine/Flags.lean: the flag and status computations (rules R38, R40): `U.STATUS` and `U.VALID` at a
`last` beat (rules R139, R186), `P.OVF` (rules R156, R157), `U.TRAIL` (rule R186).
-/

namespace Sys2Proof.Machine

/-- The code of `P.PHASE` (rule R34). -/
def PackerPhase.code : PackerPhase → BitVec 2
  | .idle => 0
  | .load => 1
  | .emit => 2
  | .err => 3

/-- The code of `U.PHASE` (rule R36). -/
def UnpackerPhase.code : UnpackerPhase → BitVec 1
  | .recv => 0
  | .done => 1

/-- The code of `U.STATUS` (rule R40). -/
def Status.code : Status → BitVec 2
  | .ok => 0b00
  | .malformedShort => 0b01
  | .malformedLength => 0b10

/-- `st` of rule R186, from `cnt'` and `len'`: SHORT over LENGTH over OK (rules R221, R222, R228). -/
def statusOf (cnt : Count) (len : Half) : Status :=
  if cnt.toNat < Config.hdrLen then .malformedShort
  else if cnt.toNat < Config.hdrLen + len.toNat then .malformedLength
  else .ok

/-- `U.VALID` of rules R139 and R186: 1 exactly when the datagram decoded and the two sums agree. -/
def validOf (st : Status) (sum ckw : Half) : Bool := decide (st = .ok) && decide (sum = ckw)

/-- The condition under which a payload byte overflows the packer (rule R156: a 65536th byte). -/
def payloadFull (len : Half) : Bool := decide (len.toNat = Config.maxPayload)

end Sys2Proof.Machine
end

