-- ==== Sys2Proof/Machine/Operands.lean ====
section
/-!
DEFINITION. Machine/Operands.lean: where a byte comes from and where it goes: the role of a received byte by its
index (rule R109), the buffer indices of the four accesses (rules R70, R71, R156, R160, R186), the header bytes of
the packer (rule R159), the output byte (rule R160) and the read window (rule R77).
-/

namespace Sys2Proof.Machine

/-- What a received byte is (rule R109). -/
inductive ByteRole where
  | type
  | seq
  | length
  | cksum
  | payload (index : Nat)
  | trailing
deriving DecidableEq, Repr

/-- The role of the byte at index `U.CNT` (rules R109, R186). -/
def byteRole (cnt : Count) (len : Half) : ByteRole :=
  if cnt.toNat = 0 then .type
  else if cnt.toNat ≤ 4 then .seq
  else if cnt.toNat ≤ 6 then .length
  else if cnt.toNat ≤ 8 then .cksum
  else if cnt.toNat < Config.hdrLen + len.toNat then .payload (cnt.toNat - Config.hdrLen)
  else .trailing

/-- The TXBUF index a payload byte is stored at: `P.LEN` (rule R156). -/
def txStoreIndex (p : Packer) : Nat := p.len.toNat

/-- The TXBUF index an output beat past the header reads: `P.CNT - 9` (rule R160). -/
def txLoadIndex (p : Packer) : Nat := p.cnt.toNat - Config.hdrLen

/-- `hdr_byte(i)` (rule R159). -/
def hdrByte (tc : TypeCode) (p : Packer) (i : Nat) : Byte :=
  match i with
  | 0 => tc.code p.type
  | 1 => p.seq.extractLsb' 24 8
  | 2 => p.seq.extractLsb' 16 8
  | 3 => p.seq.extractLsb' 8 8
  | 4 => p.seq.extractLsb' 0 8
  | 5 => p.len.extractLsb' 8 8
  | 6 => p.len.extractLsb' 0 8
  | 7 => p.sum.extractLsb' 8 8
  | _ => p.sum.extractLsb' 0 8

/-- `tx_out_data` in `EMIT` (rule R160); none where `P.CNT - 9` is no cell of TXBUF (rule R72). -/
def txOutData? (tc : TypeCode) (p : Packer) : Option Byte :=
  if p.cnt.toNat ≤ 8 then some (hdrByte tc p p.cnt.toNat)
  else if txLoadIndex p < Config.maxPayload then some (readTxbuf p.txbuf (txLoadIndex p))
  else none

/-- `tx_out_last` in `EMIT` (rule R160). -/
def txOutLast (p : Packer) : Bool := decide (p.cnt.toNat = 8 + p.len.toNat)

/-- The read window of rule R77: `DONE`, `OK` and an index below `U.LEN`. -/
def inReadWindow (u : Unpacker) (a : BitVec 16) : Bool :=
  decide (u.phase = .done) && decide (u.status = .ok) && decide (a.toNat < u.len.toNat)

/-- Whether the event an operation stands for is enabled (rules R154, R185, R250). A pulse outside its phase is
not enabled, and `RX_READ` and `RESET` always are. -/
def eventEnabled (s : State) : Instr → Bool
  | .hdrData _ _ _ _ => decide (s.u.phase = .recv)
  | .hdrMetadata _ _ _ _ => decide (s.u.phase = .recv)
  | .hdrAck _ _ _ _ => decide (s.u.phase = .recv)
  | .hdrFin _ _ _ _ => decide (s.u.phase = .recv)
  | .hdrUnknown _ _ _ _ _ => decide (s.u.phase = .recv)
  | .txCmd _ _ => decide (s.p.phase = .idle)
  | .txPlBeat _ _ _ => decide (s.p.phase = .load)
  | .txOutBeat => decide (s.p.phase = .emit)
  | .txErrAck => decide (s.p.phase = .err)
  | .rxBeat _ _ _ => decide (s.u.phase = .recv)
  | .rxRead _ => true
  | .rxRelease => decide (s.u.phase = .done)
  | .reset => true

end Sys2Proof.Machine
end

