-- ==== Sys2Proof/Machine/Packer.lean ====
section
/-!
DEFINITION. Machine/Packer.lean: the packer's events `TX_CMD`, `TX_PL_BEAT`, `TX_OUT_BEAT`, `TX_ERR_ACK` (rules R153
to R161). An event that is not enabled does not occur: the state is unchanged (rule R154).
-/

namespace Sys2Proof.Machine

/-- The `keep = 1` part of rule R156: store the byte, or set `P.OVF` at a 65536th byte (rule R157). -/
def Packer.takeByte (p : Packer) (b : Byte) : Packer :=
  if payloadFull p.len then { p with ovf := true }
  else { p with txbuf := p.txbuf.write (txStoreIndex p) b, len := p.len + 1, sum := ckStep p.sum b }

/-- The `last = 1` part of rule R156. -/
def Packer.endPayload (p : Packer) : Packer := if p.ovf then p.enterErr else p.enterEmit

/-- One payload beat (rule R156). -/
def Packer.plBeat (p : Packer) (keep last : Bool) (b : Byte) : Packer :=
  let p' := if keep then p.takeByte b else p
  if last then p'.endPayload else p'

/-- The registers after `TX_CMD` (rule R155). -/
def Packer.command (p : Packer) (t : PacketType) (seq : SeqBits) : Packer :=
  { p with type := t, seq := seq, len := 0, sum := 0, cnt := 0, ovf := false, phase := .load }

/-- The registers after `TX_OUT_BEAT` (rule R161). -/
def Packer.advance (p : Packer) : Packer :=
  if txOutLast p then { p with phase := .idle } else { p with cnt := p.cnt + 1 }

/-- `TX_CMD(type, seq)` (rule R155). -/
def execTxCmd (t : PacketType) (seq : SeqBits) (s : State) : Host.Outcome State Fault Refusal :=
  if s.p.phase = .idle then .next (s.setPacker (s.p.command t seq)) else .next s

/-- `TX_PL_BEAT(data, keep, last)` (rules R156, R157). -/
def execTxPlBeat (keep last : Bool) (b : Byte) (s : State) : Host.Outcome State Fault Refusal :=
  if s.p.phase = .load then .next (s.setPacker (s.p.plBeat keep last b)) else .next s

/-- `TX_OUT_BEAT` (rules R160, R161): the beat is taken from the state before the step. -/
def execTxOutBeat (s : State) : Host.Outcome State Fault Refusal :=
  if s.p.phase = .emit then
    match txOutData? s.typeCode s.p with
    | some b => .next ((s.emitBeat { last := txOutLast s.p, data := b }).setPacker s.p.advance)
    | none => .fault (.noTxbufCell (txLoadIndex s.p))
  else .next s

/-- `TX_ERR_ACK` (rule R158). -/
def execTxErrAck (s : State) : Host.Outcome State Fault Refusal :=
  if s.p.phase = .err then .next (s.setPacker s.p.leaveErr) else .next s

end Sys2Proof.Machine
end

