-- ==== Sys2Proof/Machine/Unpacker.lean ====
section
/-!
DEFINITION. Machine/Unpacker.lean: the unpacker's events `RX_BEAT`, `RX_READ`, `RX_RELEASE` (rules R184 to R197). An
event that is not enabled does not occur: the state is unchanged (rule R185).
-/

namespace Sys2Proof.Machine

/-- The `keep = 1` part of rule R186: route one byte by its index (rule R109). -/
def Unpacker.takeByte (u : Unpacker) (b : Byte) : Unpacker :=
  match byteRole u.cnt u.len with
  | .type => { u with type := b, cnt := 1 }
  | .seq => { u with seq := shiftIn32 u.seq b, cnt := u.cnt + 1 }
  | .length => { u with len := shiftIn16 u.len b, cnt := u.cnt + 1 }
  | .cksum => { u with ckw := shiftIn16 u.ckw b, cnt := u.cnt + 1 }
  | .payload i => { u with rxbuf := u.rxbuf.write i b, sum := ckStep u.sum b, cnt := u.cnt + 1 }
  | .trailing => { u with trail := true }

/-- The `last = 1` part of rules R139 and R186: the verdict over the whole datagram. -/
def Unpacker.finish (u : Unpacker) : Unpacker :=
  u.enterDone (statusOf u.cnt u.len) (validOf (statusOf u.cnt u.len) u.sum u.ckw)

/-- One stream beat (rule R186). -/
def Unpacker.beat (u : Unpacker) (keep last : Bool) (b : Byte) : Unpacker :=
  let u' := if keep then u.takeByte b else u
  if last then u'.finish else u'

/-- `RX_BEAT(data, keep, last)` (rule R186). -/
def execRxBeat (keep last : Bool) (b : Byte) (s : State) : Host.Outcome State Fault Refusal :=
  if s.u.phase = .recv then .next (s.setUnpacker (s.u.beat keep last b)) else .next s

/-- `RX_READ(a)` (rules R77, R78, R195): inside the window the cell, outside it a free byte, drawn afresh. The
block's own state does not change. -/
def execRxRead (a : BitVec 16) (s : State) : Host.Outcome State Fault Refusal :=
  if inReadWindow s.u a then .next (s.reply a (readRxbuf s.u.rxbuf a.toNat))
  else .next ((s.reply a (Config.freeByte s.draws)).drawn)

/-- `RX_RELEASE` (rule R197). -/
def execRxRelease (s : State) : Host.Outcome State Fault Refusal :=
  if s.u.phase = .done then .next (s.setUnpacker s.u.release) else .next s

end Sys2Proof.Machine
end

