-- ==== Sys2Proof/Machine/Codec.lean ====
section
/-!
DEFINITION. Machine/Codec.lean: the function level of the spec, which is normative (rule R13 (a)): `checksum16`
(rule R130), `encode_fields`, `encode`, `pack` (rules R150 to R152), `decode` (rules R180 to R183) and `is_valid`
(rule R138).
-/

namespace Sys2Proof.Machine

/-- The sum of the bytes over the integers (rule R130). -/
def byteSum : List Byte → Nat
  | [] => 0
  | b :: rest => b.toNat + byteSum rest

/-- `checksum16(p)` (rule R130). -/
def checksum16 (p : List Byte) : Half := BitVec.ofNat 16 (byteSum p % Config.ckMod)

/-- A packet record (rule R18). `seq` is the signed number. -/
structure Packet where
  type : PacketType
  seq : Int
  payloadLength : Half
  checksum : Half
  payload : List Byte
deriving DecidableEq, Repr

/-- A well-formed packet (rules R11, R18): `seq` fits 32 signed bits, the length field is the payload's length. -/
abbrev Packet.WellFormed (pkt : Packet) : Prop :=
  -2 ^ 31 ≤ pkt.seq ∧ pkt.seq < 2 ^ 31 ∧ pkt.payload.length ≤ Config.maxPayload ∧
  pkt.payloadLength.toNat = pkt.payload.length

/-- A valid packet: well-formed with the right checksum (rule R18). -/
abbrev Packet.Valid (pkt : Packet) : Prop :=
  pkt.WellFormed ∧ pkt.checksum = checksum16 pkt.payload

/-- `encode_fields(t, s, l, c, p)` (rule R150). -/
def encodeFields (t : Byte) (s : SeqBits) (l c : Half) (p : List Byte) : List Byte :=
  [t] ++ bytesBe32 s ++ bytesBe16 l ++ bytesBe16 c ++ p

/-- `encode(pkt)` (rule R151). -/
def encodePacket (tc : TypeCode) (pkt : Packet) : List Byte :=
  encodeFields (tc.code pkt.type) (twos32 pkt.seq) pkt.payloadLength pkt.checksum pkt.payload

/-- `pack(T, s, p)` (rule R152). -/
def pack (tc : TypeCode) (t : PacketType) (s : Int) (p : List Byte) : List Byte :=
  encodePacket tc
    { type := t, seq := s, payloadLength := BitVec.ofNat 16 p.length, checksum := checksum16 p, payload := p }

/-- The record of an `Ok` result of `decode` (rule R180); `trailing` is no packet field (rule R183). -/
structure DecodedPacket where
  typeRaw : Byte
  seq : Int
  payloadLength : Half
  checksum : Half
  payload : List Byte
  trailing : Bool
deriving DecidableEq, Repr

/-- The three results of `decode` (rule R180). -/
inductive DecodeResult where
  | malformedShort
  | malformedLength
  | ok (pkt : DecodedPacket)
deriving DecidableEq, Repr

/-- `d[i]`, used only where `i < |d|`. -/
def byteAt (d : List Byte) (i : Nat) : Byte := d.getD i 0

/-- `decode(d)` (rules R180, R181). Total on every byte string. -/
def decodeDatagram (d : List Byte) : DecodeResult :=
  if d.length < Config.hdrLen then .malformedShort
  else
    let l := be16 (byteAt d 5) (byteAt d 6)
    if d.length - Config.hdrLen < l.toNat then .malformedLength
    else
      .ok
        { typeRaw := byteAt d 0
          seq := sint32 (be32 (byteAt d 1) (byteAt d 2) (byteAt d 3) (byteAt d 4))
          payloadLength := l
          checksum := be16 (byteAt d 7) (byteAt d 8)
          payload := (d.drop Config.hdrLen).take l.toNat
          trailing := decide (Config.hdrLen + l.toNat < d.length) }

/-- The decoded type (rule R182): none stands for `UNKNOWN(type_raw)`. -/
def DecodedPacket.type? (tc : TypeCode) (pkt : DecodedPacket) : Option PacketType := tc.typeOf? pkt.typeRaw

/-- `is_valid(pkt)` (rule R138), defined on decoded packets only. -/
def isValid (pkt : DecodedPacket) : Bool := decide (checksum16 pkt.payload = pkt.checksum)

end Sys2Proof.Machine
end

