-- ==== Sys2Proof/Machine/Wire.lean ====
section
/-!
DEFINITION. Machine/Wire.lean: the five header rows. A header row stands for the arrival of one whole datagram on
`rx_in`: the pseudo-operation `unpack d` of rule R118, one `RX_BEAT` per byte with `last` on the final one, whose
result rule R200 gives as `decode` (rule R180) and `is_valid` (rule R138) of the bytes.
-/

namespace Sys2Proof.Machine

/-- `unpack d` (rule R118): a beat per byte, `last` on the final one; an empty datagram is one no-byte beat. -/
def Unpacker.unpack (u : Unpacker) : List Byte → Unpacker
  | [] => u.beat false true 0
  | [b] => u.beat true true b
  | b :: c :: rest => Unpacker.unpack (u.beat true false b) (c :: rest)

/-- The datagram `d` arrives on `rx_in`; a wire source facing `rx_in_ready = 0` waits (rule R185). -/
def receive (d : List Byte) (s : State) : Host.Outcome State Fault Refusal :=
  if s.u.phase = .recv then .next (s.setUnpacker (s.u.unpack d)) else .next s

/-- `HDR.DATA` (rules R103, R180, R182, R186). -/
def execHdrData (seq : SeqBits) (len ck : Half) (rest : List Byte) (s : State) : Host.Outcome State Fault Refusal :=
  receive (encodeFields (s.typeCode.code .data) seq len ck rest) s

/-- `HDR.METADATA` (rules R103, R180, R182, R186). -/
def execHdrMetadata (seq : SeqBits) (len ck : Half) (rest : List Byte) (s : State) :
    Host.Outcome State Fault Refusal :=
  receive (encodeFields (s.typeCode.code .metadata) seq len ck rest) s

/-- `HDR.ACK` (rules R103, R180, R182, R186). -/
def execHdrAck (seq : SeqBits) (len ck : Half) (rest : List Byte) (s : State) : Host.Outcome State Fault Refusal :=
  receive (encodeFields (s.typeCode.code .ack) seq len ck rest) s

/-- `HDR.FIN` (rules R103, R180, R182, R186). -/
def execHdrFin (seq : SeqBits) (len ck : Half) (rest : List Byte) (s : State) : Host.Outcome State Fault Refusal :=
  receive (encodeFields (s.typeCode.code .fin) seq len ck rest) s

/-- `HDR.UNKNOWN` (rules R112 (a), R182, R189, R224): an unknown type byte does not make a datagram malformed. -/
def execHdrUnknown (t : Byte) (seq : SeqBits) (len ck : Half) (rest : List Byte) (s : State) :
    Host.Outcome State Fault Refusal :=
  receive (encodeFields t seq len ck rest) s

end Sys2Proof.Machine
end

