-- ==== Sys2Proof/Machine/Dispatch.lean ====
section
/-!
DEFINITION. Machine/Dispatch.lean: one arm per row of spec/opcode_table.json.
-/

namespace Sys2Proof.Machine

def exec (i : Instr) (s : State) : Host.Outcome State Fault Refusal :=
  match i with
  -- the wire headers
  | .hdrData seq len ck rest => Sys2Proof.Machine.execHdrData seq len ck rest s
  | .hdrMetadata seq len ck rest => Sys2Proof.Machine.execHdrMetadata seq len ck rest s
  | .hdrAck seq len ck rest => Sys2Proof.Machine.execHdrAck seq len ck rest s
  | .hdrFin seq len ck rest => Sys2Proof.Machine.execHdrFin seq len ck rest s
  | .hdrUnknown t seq len ck rest => Sys2Proof.Machine.execHdrUnknown t seq len ck rest s
  -- the packer's events
  | .txCmd t seq => Sys2Proof.Machine.execTxCmd t seq s
  | .txPlBeat keep last b => Sys2Proof.Machine.execTxPlBeat keep last b s
  | .txOutBeat => Sys2Proof.Machine.execTxOutBeat s
  | .txErrAck => Sys2Proof.Machine.execTxErrAck s
  -- the unpacker's events
  | .rxBeat keep last b => Sys2Proof.Machine.execRxBeat keep last b s
  | .rxRead a => Sys2Proof.Machine.execRxRead a s
  | .rxRelease => Sys2Proof.Machine.execRxRelease s
  -- both agents
  | .reset => Sys2Proof.Machine.execReset s

end Sys2Proof.Machine
end

