-- ==== Sys2Proof/Machine/Fetch.lean ====
section
/-!
DEFINITION. Machine/Fetch.lean: which of the words the environment offers moves next. The block fetches no
instruction (rule R33): an operation is a beat that transfers on a port (rules R17, R44).
-/

namespace Sys2Proof.Machine

/-- Whether an offered word leaves the list of offers at its turn. A beat waits while its `ready` is low, with its
fields held (rules R44, R154, R185); a pulse, a read, a reset and a one-bit port at 0 never wait. -/
def offerMoves (s : State) (w : PortWord) : Bool :=
  match decodeWord s.typeCode w with
  | .error _ => true
  | .ok .txErrAck => true
  | .ok .rxRelease => true
  | .ok i => eventEnabled s i

/-- The first offered word that moves, and the offers without it, in order. -/
def takeOffer (s : State) : List PortWord → Option (PortWord × List PortWord)
  | [] => none
  | w :: rest =>
    if offerMoves s w then some (w, rest)
    else
      match takeOffer s rest with
      | some (v, left) => some (v, w :: left)
      | none => none

end Sys2Proof.Machine
end

