-- ==== Sys2Proof/Machine/Step.lean ====
section
/-!
DEFINITION. Machine/Step.lean: one step is one event (rule R17): the first offered word that can transfer is taken
off the list of offers, decoded and executed. With no such word the agents wait (rules R154, R185, R243).
-/

namespace Sys2Proof.Machine

/-- One step. A one-bit port at 0 stands for no event, so it is taken off and nothing else happens. -/
def step (s : State) : Host.Outcome State Fault Refusal :=
  match takeOffer s s.offers with
  | none => .next s
  | some (w, left) =>
    match decodeWord s.typeCode w with
    | .error _ => .next (s.setOffers left)
    | .ok i => exec i (s.setOffers left)

/-- The environment offers exactly the table word, in place of whatever it offered before (an earlier offer could
otherwise go first). A word that is no word of the table changes nothing. -/
def State.withFetchWord (s : State) (nbits w : Nat) : State :=
  match tableWord nbits w with
  | some pw => s.setOffers [pw]
  | none => s

end Sys2Proof.Machine
end

