-- ==== Sys2Proof/Machine/Ports.lean ====
section
/-!
DEFINITION. Machine/Ports.lean: the output ports (rules R45 to R48, R189). A group of outputs that has a meaning only
under its valid signal (rules R48, R160, entry U11) is an Option, none when the signal is low. After them the five
conditions those outputs report (rules R220 to R228).
-/

namespace Sys2Proof.Machine

/-- `tx_cmd_ready` (rule R45). -/
def txCmdReady (s : State) : Bool := decide (s.p.phase = .idle)

/-- `tx_pl_ready` (rule R45). -/
def txPlReady (s : State) : Bool := decide (s.p.phase = .load)

/-- `tx_out_valid` (rule R46). -/
def txOutValid (s : State) : Bool := decide (s.p.phase = .emit)

/-- `tx_err` (rule R46). -/
def txErr (s : State) : Bool := decide (s.p.phase = .err)

/-- `tx_out_data` and `tx_out_last` (rules R46, R160): no meaning outside `EMIT`. -/
def txOutBeat? (s : State) : Option OutBeat :=
  if s.p.phase = .emit then (txOutData? s.typeCode s.p).map (fun b => { last := txOutLast s.p, data := b }) else none

/-- The output beat as the 9-bit word `{last, data[7:0]}` (rule R111). -/
def OutBeat.word (b : OutBeat) : BitVec 9 := flagBit b.last ++ b.data

/-- `rx_in_ready` (rule R47). -/
def rxInReady (s : State) : Bool := decide (s.u.phase = .recv)

/-- `rx_res_valid` (rule R48). -/
def rxResValid (s : State) : Bool := decide (s.u.phase = .done)

/-- `rx_type_known` as a function of `U.TYPE` (rules R48, R189). -/
def typeKnown (tc : TypeCode) (t : Byte) : Bool := (tc.typeOf? t).isSome

/-- `rx_type_class` as a function of `U.TYPE` (rules R48, R189): 0 when the type is not known. -/
def typeClass (tc : TypeCode) (t : Byte) : BitVec 2 :=
  match tc.typeOf? t with
  | some k => k.classCode
  | none => 0

/-- The result outputs of rule R48 other than `rx_rd_data`. -/
structure RxResult where
  status : BitVec 2
  valid : Bool
  trailing : Bool
  type : Byte
  typeKnown : Bool
  typeClass : BitVec 2
  seq : SeqBits
  len : Half
  cksum : Half
  cksumCalc : Half
deriving DecidableEq, Repr

/-- The result outputs (rule R48), meaningful only while `rx_res_valid = 1`. -/
def rxResult? (s : State) : Option RxResult :=
  if s.u.phase = .done then
    some
      { status := s.u.status.code, valid := s.u.valid, trailing := s.u.trail, type := s.u.type,
        typeKnown := typeKnown s.typeCode s.u.type, typeClass := typeClass s.typeCode s.u.type,
        seq := s.u.seq, len := s.u.len, cksum := s.u.ckw, cksumCalc := s.u.sum }
  else none

/-- `rx_rd_data` for the index on `rx_rd_addr` (rules R48, R77, R195): none where the value is unspecified. -/
def rxRdData? (s : State) (a : BitVec 16) : Option Byte :=
  if inReadWindow s.u a then some (readRxbuf s.u.rxbuf a.toNat) else none

/-! ## The conditions of rule R220 -/

/-- The five conditions the block detects (rule R220). -/
inductive Condition where
  /-- E1 (rule R221). -/
  | malformedShort
  /-- E2 (rule R222). -/
  | malformedLength
  /-- E3 (rule R223). -/
  | corrupted
  /-- E4 (rule R224). -/
  | unknownType
  /-- E5 (rule R225). -/
  | packOverflow
deriving DecidableEq, Repr

/-- Which of E1, E2 and E3 a held result reports, if any (rules R220, R228). -/
def datagramCondition? (s : State) : Option Condition :=
  if s.u.phase = .done then
    match s.u.status with
    | .malformedShort => some .malformedShort
    | .malformedLength => some .malformedLength
    | .ok => if s.u.valid then none else some .corrupted
  else none

/-- Whether a held result reports E4; meaningful only when the status is `OK` (rules R224, R228). -/
def typeCondition? (s : State) : Option Condition :=
  if s.u.phase = .done ∧ typeKnown s.typeCode s.u.type = false then some .unknownType else none

/-- Whether the packer reports E5 (rule R225). -/
def packerCondition? (s : State) : Option Condition := if txErr s then some .packOverflow else none

end Sys2Proof.Machine
end

