-- ==== Sys2Proof/Safety.lean ====
section
/-!
DEFINITION. Safety.lean: the terms statements are written in: sequences of operations (rule R117), the strings a
sequence of stream beats delivers (rule R110), the state invariants (rule R53) and quiescence (rule R254).
-/

namespace Sys2Proof.Machine

/-- Operations in the order they occur (rule R117), stopping at the first that does not answer a next state. -/
def execAll : List Instr → State → Host.Outcome State Fault Refusal
  | [], s => .next s
  | i :: rest, s =>
    match exec i s with
    | .next s' => execAll rest s'
    | .fault r => .fault r
    | .refused r => .refused r

/-- The byte string that stream beats `(keep, data)` deliver: the data of the `keep = 1` beats (rule R110). -/
def delivered : List (Bool × Byte) → List Byte
  | [] => []
  | (keep, b) :: rest => if keep then b :: delivered rest else delivered rest

/-- The `tx_pl` beats of a payload: none of `bs` is last, the final one is (rule R110). -/
def txPayloadBeats (bs : List (Bool × Byte)) (final : Bool × Byte) : List Instr :=
  bs.map (fun x => .txPlBeat x.1 false x.2) ++ [.txPlBeat final.1 true final.2]

/-- The `rx_in` beats of a datagram: none of `bs` is last, the final one is (rule R110). -/
def rxDatagramBeats (bs : List (Bool × Byte)) (final : Bool × Byte) : List Instr :=
  bs.map (fun x => .rxBeat x.1 false x.2) ++ [.rxBeat final.1 true final.2]

/-- The output beats of a datagram's bytes: `last` on the final one and on no other (rule R165). -/
def outBeats : List Byte → List OutBeat
  | [] => []
  | [b] => [{ last := true, data := b }]
  | b :: c :: rest => { last := false, data := b } :: outBeats (c :: rest)

/-- A register that bytes have been shifted into, starting from 0 (rule R105). -/
def shifted32 (bs : List Byte) : SeqBits := bs.foldl shiftIn32 0

/-- A register that bytes have been shifted into, starting from 0 (rules R106, R107). -/
def shifted16 (bs : List Byte) : Half := bs.foldl shiftIn16 0

/-- The operations of the packer's four ports. -/
def isPackerEvent : Instr → Bool
  | .txCmd _ _ => true
  | .txPlBeat _ _ _ => true
  | .txOutBeat => true
  | .txErrAck => true
  | .hdrData _ _ _ _ => false
  | .hdrMetadata _ _ _ _ => false
  | .hdrAck _ _ _ _ => false
  | .hdrFin _ _ _ _ => false
  | .hdrUnknown _ _ _ _ _ => false
  | .rxBeat _ _ _ => false
  | .rxRead _ => false
  | .rxRelease => false
  | .reset => false

/-- The operations of the unpacker's ports, whole datagrams among them. -/
def isUnpackerEvent : Instr → Bool
  | .hdrData _ _ _ _ => true
  | .hdrMetadata _ _ _ _ => true
  | .hdrAck _ _ _ _ => true
  | .hdrFin _ _ _ _ => true
  | .hdrUnknown _ _ _ _ _ => true
  | .rxBeat _ _ _ => true
  | .rxRead _ => true
  | .rxRelease => true
  | .txCmd _ _ => false
  | .txPlBeat _ _ _ => false
  | .txOutBeat => false
  | .txErrAck => false
  | .reset => false

/-- The datagram a header row stands for (rules R101, R150), none for an event row. -/
def rowDatagram? (tc : TypeCode) : Instr → Option (List Byte)
  | .hdrData seq len ck rest => some (encodeFields (tc.code .data) seq len ck rest)
  | .hdrMetadata seq len ck rest => some (encodeFields (tc.code .metadata) seq len ck rest)
  | .hdrAck seq len ck rest => some (encodeFields (tc.code .ack) seq len ck rest)
  | .hdrFin seq len ck rest => some (encodeFields (tc.code .fin) seq len ck rest)
  | .hdrUnknown t seq len ck rest => some (encodeFields t seq len ck rest)
  | .txCmd _ _ => none
  | .txPlBeat _ _ _ => none
  | .txOutBeat => none
  | .txErrAck => none
  | .rxBeat _ _ _ => none
  | .rxRead _ => none
  | .rxRelease => none
  | .reset => none

/-- The unpacker stands at the start of a datagram: every register at its reset value (rules R197, R200). -/
def Unpacker.AtStart (u : Unpacker) : Prop := u = Unpacker.cleared u.rxbuf

/-- The first cells of RXBUF hold the string `bs` and every other cell reads as it did in `u0`. -/
def HoldsPayload (u0 u : Unpacker) (bs : List Byte) : Prop :=
  ∀ j, readRxbuf u.rxbuf j = if j < bs.length then byteAt bs j else readRxbuf u0.rxbuf j

/-- The table of rule R200: the unpacker `u` in `DONE` after the datagram `d`, received from `u0`. -/
def UnpackedAs (d : List Byte) (u0 u : Unpacker) : Prop :=
  u.phase = .done ∧
  match decodeDatagram d with
  | .malformedShort =>
      u.status = .malformedShort ∧ u.valid = false ∧ u.trail = false ∧ u.cnt.toNat = d.length ∧
      u.type = byteAt d 0 ∧ u.seq = shifted32 ((d.drop 1).take 4) ∧ u.len = shifted16 ((d.drop 5).take 2) ∧
      u.ckw = shifted16 ((d.drop 7).take 2) ∧ u.sum = 0 ∧ u.rxbuf = u0.rxbuf
  | .malformedLength =>
      u.status = .malformedLength ∧ u.valid = false ∧ u.trail = false ∧ u.cnt.toNat = d.length ∧
      u.type = byteAt d 0 ∧ u.seq = be32 (byteAt d 1) (byteAt d 2) (byteAt d 3) (byteAt d 4) ∧
      u.len = be16 (byteAt d 5) (byteAt d 6) ∧ u.ckw = be16 (byteAt d 7) (byteAt d 8) ∧
      u.sum = checksum16 (d.drop 9) ∧ HoldsPayload u0 u (d.drop 9)
  | .ok pkt =>
      u.status = .ok ∧ u.valid = isValid pkt ∧ u.trail = pkt.trailing ∧
      u.cnt.toNat = 9 + pkt.payloadLength.toNat ∧ u.type = pkt.typeRaw ∧ sint32 u.seq = pkt.seq ∧
      u.len = pkt.payloadLength ∧ u.ckw = pkt.checksum ∧ u.sum = checksum16 pkt.payload ∧
      HoldsPayload u0 u pkt.payload

/-- The state invariants (a) to (i) of rule R53. Item (j) is about two runs and is stated on its own. -/
structure Inv (s : State) : Prop where
  /-- (a) -/
  packerSumReduced : s.p.sum.toNat ≤ 65534
  /-- (a) -/
  unpackerSumReduced : s.u.sum.toNat ≤ 65534
  /-- (b) -/
  unpackerCountBound : s.u.cnt.toNat ≤ 65544
  /-- (b) -/
  unpackerCountSaturates : 9 ≤ s.u.cnt.toNat → s.u.cnt.toNat ≤ 9 + s.u.len.toNat
  /-- (c) -/
  emitCountBound : s.p.phase = .emit → s.p.cnt.toNat ≤ 8 + s.p.len.toNat
  /-- (d) -/
  overflowOnlyWhenFull : s.p.ovf = true → s.p.len.toNat = 65535
  /-- (e) -/
  validMeansGood : s.u.valid = true → s.u.phase = .done ∧ s.u.status = .ok ∧ s.u.sum = s.u.ckw
  /-- (f) -/
  statusOnlyInDone : s.u.status ≠ .ok → s.u.phase = .done
  /-- (g) -/
  trailOnlyPastPayload : s.u.trail = true → 9 ≤ s.u.cnt.toNat ∧ s.u.cnt.toNat = 9 + s.u.len.toNat
  /-- (h) -/
  packerSumIsChecksum : s.p.phase = .load ∨ s.p.phase = .emit →
    s.p.sum = checksum16 (txPayload s.p.txbuf s.p.len.toNat)
  /-- (i) -/
  unpackerSumIsChecksum : 9 ≤ s.u.cnt.toNat → s.u.sum = checksum16 (rxPayload s.u.rxbuf (s.u.cnt.toNat - 9))
  /-- (i) -/
  unpackerSumZeroInHeader : s.u.cnt.toNat < 9 → s.u.sum = 0

/-- Every cell a specified read can reach has been written (rules R52, R76): TXBUF below `P.LEN` while a packet is
in the packer, RXBUF below `U.CNT - 9`. -/
structure Written (s : State) : Prop where
  txbuf : s.p.phase = .load ∨ s.p.phase = .emit → ∀ j, j < s.p.len.toNat → (s.p.txbuf.find? j).isSome = true
  rxbuf : ∀ j, j + 9 < s.u.cnt.toNat → (s.u.rxbuf.find? j).isSome = true

/-- Both buffers are in canonical form. -/
def BuffersCanonical (s : State) : Prop := s.p.txbuf.wf = true ∧ s.u.rxbuf.wf = true

/-- Quiescence (rule R254). -/
def Quiescent (s : State) : Prop :=
  s.p.phase = .idle ∧ s.u.phase = .recv ∧ s.u.cnt = 0 ∧ s.u.trail = false

end Sys2Proof.Machine
end

