-- ==== Sys2Proof/Certificates/Slice0/Obligations.lean ====
section
/-!
DEFINITION. Certificates/Slice0/Obligations.lean: the statements. Each docstring names the rules of spec/ it is
about; what is the model's own choice is said there with the log entry.
-/

open Sys2Proof Sys2Proof.Machine

/-! ## Encodings -/

/-- Rules R101, R103, R110, R111: the word of an operation decodes to that operation, with every operand at every
value, for every injective `TYPE_CODE` (rule R10). That a header row carries a whole datagram is the model's choice
(notes/assumptions/5.md). -/
def Obligations.EncodedOperationDecodesBack : Prop :=
  ∀ (tc : TypeCode) (i : Instr), tc.Injective → i.wellFormed tc = true →
    decodeWord tc (encodeWord tc i) = .ok i

/-- Rules R101, R103, R110, R111: a word that decodes is the word of the operation it decodes to, and that operation
is well-formed. Header rows as datagrams: notes/assumptions/5.md. -/
def Obligations.DecodedWordEncodesBack : Prop :=
  ∀ (tc : TypeCode) (w : PortWord) (i : Instr), decodeWord tc w = .ok i →
    i.wellFormed tc = true ∧ encodeWord tc i = w

/-- Rule R101: the fields of the nine header bytes read as one big-endian number. -/
def Obligations.HeaderWordFieldsAreTheHeaderBytes : Prop :=
  ∀ (d0 d1 d2 d3 d4 d5 d6 d7 d8 : Byte),
    let h : HeaderWord := d0 ++ d1 ++ d2 ++ d3 ++ d4 ++ d5 ++ d6 ++ d7 ++ d8
    h.toNat = (((((((d0.toNat * 256 + d1.toNat) * 256 + d2.toNat) * 256 + d3.toNat) * 256 + d4.toNat) * 256
      + d5.toNat) * 256 + d6.toNat) * 256 + d7.toNat) * 256 + d8.toNat ∧
    h.extractLsb' 64 8 = d0 ∧
    h.extractLsb' 32 32 = be32 d1 d2 d3 d4 ∧
    h.extractLsb' 16 16 = be16 d5 d6 ∧
    h.extractLsb' 0 16 = be16 d7 d8

/-- Rules R103, R182: the row of a header word is the row of the type whose code its type byte is, and the fallback
row when it is none of the four codes. Header rows as datagrams: notes/assumptions/5.md. -/
def Obligations.HeaderRowIsSelectedByTheTypeByte : Prop :=
  ∀ (tc : TypeCode) (t : Byte) (seq : SeqBits) (len ck : Half) (rest : List Byte), tc.Injective →
    (t = tc.code .data →
      decodeWord tc (.rxDatagram (headerWord t seq len ck) rest) = .ok (.hdrData seq len ck rest)) ∧
    (t = tc.code .metadata →
      decodeWord tc (.rxDatagram (headerWord t seq len ck) rest) = .ok (.hdrMetadata seq len ck rest)) ∧
    (t = tc.code .ack →
      decodeWord tc (.rxDatagram (headerWord t seq len ck) rest) = .ok (.hdrAck seq len ck rest)) ∧
    (t = tc.code .fin →
      decodeWord tc (.rxDatagram (headerWord t seq len ck) rest) = .ok (.hdrFin seq len ck rest)) ∧
    ((∀ k, t ≠ tc.code k) →
      decodeWord tc (.rxDatagram (headerWord t seq len ck) rest) = .ok (.hdrUnknown t seq len ck rest))

/-- Words written out from rules R101, R103, R110 and R111, at least one for each family, decode to what they stand
for. In the three header clauses the 72 bits are rule R101's; that the word carries the rest of the datagram beside them
is the model's choice (notes/assumptions/5.md). -/
def Obligations.WrittenOutWordsDecodeToTheirRows : Prop :=
  decodeWord TypeCode.standard (.rxDatagram 0x000000000700060260#72 [0x4E, 0x65, 0x74, 0x56, 0x69, 0x7A])
    = .ok (.hdrData 7 6 0x0260 [0x4E, 0x65, 0x74, 0x56, 0x69, 0x7A]) ∧
  decodeWord TypeCode.standard (.rxDatagram 0x03FFFFFFFF00000000#72 []) = .ok (.hdrFin 0xFFFFFFFF 0 0 []) ∧
  decodeWord TypeCode.standard (.rxDatagram 0x7F0000000900010041#72 [0x41]) = .ok (.hdrUnknown 0x7F 9 1 0x0041 [0x41]) ∧
  decodeWord TypeCode.standard (.txCmd 0b1111111111111111111111111111111111#34) = .ok (.txCmd .fin 0xFFFFFFFF) ∧
  decodeWord TypeCode.standard (.txPl 0b1100100001#10) = .ok (.txPlBeat true true 0x21) ∧
  decodeWord TypeCode.standard (.rxIn 0b0100000000#10) = .ok (.rxBeat false true 0) ∧
  decodeWord TypeCode.standard (.rxRd 0xFFFF#16) = .ok (.rxRead 0xFFFF) ∧
  decodeWord TypeCode.standard (.rst 1#1) = .ok .reset

/-! ## Steps -/

/-- Rules R17, R44, R154, R185: when the first offered word that can transfer decodes to an operation, the step is that
operation on the state without the word; a one-bit port at 0 is taken off and nothing else happens; with no word
that can transfer the block waits. The list of offers is the model's own (notes/assumptions/3.md). -/
def Obligations.StepRunsTheDecodedOperation : Prop :=
  ∀ (s : State),
    (∀ w left i, takeOffer s s.offers = some (w, left) → decodeWord s.typeCode w = .ok i →
      step s = exec i (s.setOffers left)) ∧
    (∀ w left e, takeOffer s s.offers = some (w, left) → decodeWord s.typeCode w = .error e →
      step s = .next (s.setOffers left)) ∧
    (takeOffer s s.offers = none → step s = .next s)

/-- Rules R44, R154, R185: the word taken is the first that moves, the words before it are held in order, and when
none moves none is taken. The list of offers is the model's own (notes/assumptions/3.md). -/
def Obligations.FirstOfferThatMovesIsTaken : Prop :=
  ∀ (s : State) (before after : List PortWord) (w : PortWord),
    (∀ v ∈ before, offerMoves s v = false) →
      (offerMoves s w = true → takeOffer s (before ++ w :: after) = some (w, before ++ after)) ∧
      takeOffer s before = none

/-- An offered beat waits exactly while its event is not enabled, and a pulse never waits (rules R44, R154, R185). The list of
offers is the model's own (notes/assumptions/3.md). -/
def Obligations.OffersMoveWhenTheirEventIsEnabled : Prop :=
  ∀ (s : State) (i : Instr), s.typeCode.Injective → i.wellFormed s.typeCode = true →
    (offerMoves s (encodeWord s.typeCode i) = true ↔ eventEnabled s i = true ∨ i = .txErrAck ∨ i = .rxRelease)

/-- A table word that the environment offers is the operation the very next step runs; an operation whose event is
not enabled leaves the block as it was (notes/assumptions/3.md and 6.md). -/
def Obligations.TableWordRunsAtTheNextStep : Prop :=
  ∀ (s : State) (nbits w : Nat) (i : Instr), s.typeCode = TypeCode.standard → decodeTableWord nbits w = some i →
    (eventEnabled s i = true → step (s.withFetchWord nbits w) = exec i (s.setOffers [])) ∧
    (eventEnabled s i = false → ∃ left, step (s.withFetchWord nbits w) = .next (s.setOffers left))

/-- Rule R250: a reset in the same cycle as other beats goes first. In the model the environment says so by offering
`rst` before them (notes/assumptions/4.md). The buffers are kept as rules R89 and R250 say (notes/assumptions/2.md). -/
def Obligations.ResetOfferedFirstGoesFirst : Prop :=
  ∀ (s : State) (others : List PortWord), s.offers = .rst 1#1 :: others →
    step s = .next
      { s with p := Packer.cleared s.p.txbuf, u := Unpacker.cleared s.u.rxbuf, offers := others }

/-! ## Reset and output ports -/

/-- Rule R49, in every state: every register to its reset value. That both buffers are kept rests on rules R89 and R250
beside rule R52, which calls their bytes unspecified, and is the model's choice (notes/assumptions/2.md); that the model's
own lists are kept is too (notes/assumptions/10.md). -/
def Obligations.ResetWritesEveryRegister : Prop :=
  ∀ (s : State),
    exec .reset s = .next
      { s with
        p := { phase := .idle, type := .data, seq := 0, len := 0, sum := 0, cnt := 0, ovf := false,
               txbuf := s.p.txbuf }
        u := { phase := .recv, cnt := 0, type := 0, seq := 0, len := 0, ckw := 0, sum := 0, trail := false,
               status := .ok, valid := false, rxbuf := s.u.rxbuf } } ∧
    PackerPhase.idle.code = 0 ∧ PacketType.data.classCode = 0 ∧ UnpackerPhase.recv.code = 0 ∧ Status.ok.code = 0

/-- Rule R50: the outputs after reset. -/
def Obligations.OutputsAfterReset : Prop :=
  ∀ (s t : State), exec .reset s = .next t →
    txCmdReady t = true ∧ txPlReady t = false ∧ txOutValid t = false ∧ txErr t = false ∧
    rxInReady t = true ∧ rxResValid t = false

/-- Rule R189: the two type outputs, for any `TYPE_CODE`, and with the default codes. -/
def Obligations.TypeOutputsClassifyTheTypeByte : Prop :=
  ∀ (s : State) (r : RxResult), rxResult? s = some r → s.typeCode.Injective →
    (r.typeKnown = true ↔ ∃ k, s.u.type = s.typeCode.code k) ∧
    (∀ k, s.u.type = s.typeCode.code k → r.typeClass = k.classCode) ∧
    (r.typeKnown = false → r.typeClass = 0) ∧
    PacketType.data.classCode = 0 ∧ PacketType.metadata.classCode = 1 ∧ PacketType.ack.classCode = 2 ∧
    PacketType.fin.classCode = 3 ∧
    (s.typeCode = TypeCode.standard →
      (r.typeKnown = true ↔ s.u.type.toNat ≤ 3) ∧
      (r.typeKnown = true → r.typeClass = s.u.type.extractLsb' 0 2))

/-! ## The packer's events -/

/-- Rule R155: `TX_CMD` in `IDLE`. -/
def Obligations.TxCmdStartsAPacket : Prop :=
  ∀ (s : State) (k : PacketType) (q : SeqBits), s.p.phase = .idle →
    exec (.txCmd k q) s = .next
      { s with p := { s.p with type := k, seq := q, len := 0, sum := 0, cnt := 0, ovf := false, phase := .load } }

/-- Rule R156: `TX_PL_BEAT` in `LOAD`, for every beat and every state of the registers, with its frame: TXBUF
changes at index `P.LEN` alone, and only when the beat's byte is stored. -/
def Obligations.TxPlBeatStoresAndEndsThePayload : Prop :=
  ∀ (s : State) (keep last : Bool) (b : Byte), s.p.phase = .load →
    let full := decide (s.p.len.toNat = 65535)
    let stores := keep && !full
    let ovf' := s.p.ovf || (keep && full)
    ∃ t, exec (.txPlBeat keep last b) s = .next t ∧
      t = { s with p := t.p } ∧
      t.p.type = s.p.type ∧ t.p.seq = s.p.seq ∧
      t.p.len = (if stores then s.p.len + 1 else s.p.len) ∧
      t.p.sum = (if stores then ckStep s.p.sum b else s.p.sum) ∧
      t.p.ovf = ovf' ∧
      (∀ a, readTxbuf t.p.txbuf a =
        if stores = true ∧ a = txStoreIndex s.p then b else readTxbuf s.p.txbuf a) ∧
      txStoreIndex s.p = s.p.len.toNat ∧
      t.p.phase = (if last then (if ovf' then .err else .emit) else .load) ∧
      t.p.cnt = (if last && !ovf' then 0 else s.p.cnt)

/-- Rule R157: from a full packer, a payload that goes on past 65535 bytes is refused: nothing more is stored, summed,
counted or emitted, and the `last` beat moves to `ERR`. -/
def Obligations.OverflowingPayloadIsRefused : Prop :=
  ∀ (s : State) (bs : List (Bool × Byte)) (final : Bool × Byte),
    s.p.phase = .load → s.p.len.toNat = 65535 → delivered (bs ++ [final]) ≠ [] →
    ∃ t, execAll (txPayloadBeats bs final) s = .next t ∧
      t = { s with p := { s.p with ovf := true, phase := .err } } ∧ txErr t = true

/-- Rule R158: `TX_ERR_ACK` in `ERR`, the outputs there, and that no other packer event moves the packer out of
`ERR`: by rule R154 none is enabled there, and such an operation answers the same state (notes/assumptions/9.md). -/
def Obligations.TxErrAckReturnsToIdle : Prop :=
  ∀ (s : State), s.p.phase = .err →
    exec .txErrAck s = .next { s with p := { s.p with ovf := false, phase := .idle } } ∧
    txErr s = true ∧ txCmdReady s = false ∧ txPlReady s = false ∧ txOutValid s = false ∧
    (∀ i, i ≠ .txErrAck → i ≠ .reset → ∀ t, exec i s = .next t → t.p = s.p) ∧
    (∀ t, exec .txErrAck s = .next t → txCmdReady t = true)

/-- Rule R159: the header bytes of the packer. -/
def Obligations.HeaderBytesOfThePacker : Prop :=
  ∀ (tc : TypeCode) (p : Packer),
    (List.range 9).map (hdrByte tc p) =
      [tc.code p.type, p.seq.extractLsb' 24 8, p.seq.extractLsb' 16 8, p.seq.extractLsb' 8 8,
       p.seq.extractLsb' 0 8, p.len.extractLsb' 8 8, p.len.extractLsb' 0 8, p.sum.extractLsb' 8 8,
       p.sum.extractLsb' 0 8]

/-- Rules R160, R161: `TX_OUT_BEAT` in `EMIT` within the count bound of rule R53 (c) emits the byte at offset `P.CNT`
of the datagram, and changes nothing but the phase or the count. -/
def Obligations.TxOutBeatEmitsTheNextByte : Prop :=
  ∀ (s : State), s.p.phase = .emit → s.p.cnt.toNat ≤ 8 + s.p.len.toNat →
    ∃ t, exec .txOutBeat s = .next t ∧
      txOutBeat? s = some
        { last := decide (s.p.cnt.toNat = 8 + s.p.len.toNat)
          data := if s.p.cnt.toNat ≤ 8 then hdrByte s.typeCode s.p s.p.cnt.toNat
                  else readTxbuf s.p.txbuf (s.p.cnt.toNat - 9) } ∧
      t = { s with p := t.p, sink := s.sink ++ (txOutBeat? s).toList } ∧
      t.p = (if s.p.cnt.toNat = 8 + s.p.len.toNat then { s.p with phase := .idle } else { s.p with cnt := s.p.cnt + 1 }) ∧
      (s.p.cnt.toNat < 8 + s.p.len.toNat → t.p.cnt.toNat = s.p.cnt.toNat + 1)

/-- Rule R72 (index 65535 and above are no cells): the one fault of the model, at a count that rule R53 (c) rules
out. That the model stops there is its own choice (notes/assumptions/8.md). -/
def Obligations.TxOutBeatPastTheBufferFaults : Prop :=
  ∀ (s : State), s.p.phase = .emit → 65544 ≤ s.p.cnt.toNat →
    exec .txOutBeat s = .fault (.noTxbufCell (s.p.cnt.toNat - 9))

/-- Rule R153: the transitions of `P.PHASE`, all of them. -/
def Obligations.PackerPhaseTransitions : Prop :=
  ∀ (i : Instr) (s t : State), exec i s = .next t →
    t.p.phase =
      match s.p.phase, i with
      | .idle, .txCmd _ _ => .load
      | .load, .txPlBeat keep last _ =>
          if last then (if s.p.ovf || (keep && decide (s.p.len.toNat = 65535)) then .err else .emit) else .load
      | .emit, .txOutBeat => if s.p.cnt.toNat = 8 + s.p.len.toNat then .idle else .emit
      | .err, .txErrAck => .idle
      | _, .reset => .idle
      | ph, _ => ph

/-- Rules R154 and R185: an event that is not enabled does not occur; in every phase exactly one kind of packer event is
enabled. That an operation run where its event is not enabled answers the same state is how the model says it
(notes/assumptions/9.md). -/
def Obligations.EventsThatAreNotEnabledDoNotOccur : Prop :=
  ∀ (s : State),
    (∀ i, eventEnabled s i = false → exec i s = .next s) ∧
    (∀ k q, eventEnabled s (.txCmd k q) = true ↔ s.p.phase = .idle) ∧
    (∀ keep last b, eventEnabled s (.txPlBeat keep last b) = true ↔ s.p.phase = .load) ∧
    (eventEnabled s .txOutBeat = true ↔ s.p.phase = .emit) ∧
    (eventEnabled s .txErrAck = true ↔ s.p.phase = .err) ∧
    (∀ keep last b, eventEnabled s (.rxBeat keep last b) = true ↔ s.u.phase = .recv) ∧
    (eventEnabled s .rxRelease = true ↔ s.u.phase = .done) ∧
    (∀ a, eventEnabled s (.rxRead a) = true) ∧
    (s.u.phase = .done → rxInReady s = false) ∧
    (∀ i j, isPackerEvent i = true → isPackerEvent j = true → eventEnabled s i = true → eventEnabled s j = true →
      (∃ k q k' q', i = .txCmd k q ∧ j = .txCmd k' q') ∨
      (∃ a b c a' b' c', i = .txPlBeat a b c ∧ j = .txPlBeat a' b' c') ∨
      (i = .txOutBeat ∧ j = .txOutBeat) ∨ (i = .txErrAck ∧ j = .txErrAck)) ∧
    (∃ i, isPackerEvent i = true ∧ eventEnabled s i = true)

/-! ## The unpacker's events -/

/-- Rule R186: `RX_BEAT` in `RECV`, for every beat and every state of the registers, with its frame: RXBUF changes at
index `U.CNT - 9` alone, and only when the byte is a payload byte. -/
def Obligations.RxBeatRoutesTheByteAndJudges : Prop :=
  ∀ (s : State) (keep last : Bool) (b : Byte), s.u.phase = .recv →
    let i := s.u.cnt.toNat
    ∃ t, exec (.rxBeat keep last b) s = .next t ∧
      t = { s with u := t.u } ∧
      t.u.type = (if keep = true ∧ i = 0 then b else s.u.type) ∧
      t.u.seq = (if keep = true ∧ 1 ≤ i ∧ i ≤ 4 then s.u.seq.extractLsb' 0 24 ++ b else s.u.seq) ∧
      t.u.len = (if keep = true ∧ 5 ≤ i ∧ i ≤ 6 then s.u.len.extractLsb' 0 8 ++ b else s.u.len) ∧
      t.u.ckw = (if keep = true ∧ 7 ≤ i ∧ i ≤ 8 then s.u.ckw.extractLsb' 0 8 ++ b else s.u.ckw) ∧
      t.u.sum = (if keep = true ∧ 9 ≤ i ∧ i < 9 + s.u.len.toNat then ckStep s.u.sum b else s.u.sum) ∧
      t.u.trail = (s.u.trail || (keep && decide (9 ≤ i ∧ 9 + s.u.len.toNat ≤ i))) ∧
      t.u.cnt.toNat = (if keep = true ∧ (i < 9 ∨ i < 9 + s.u.len.toNat) then i + 1 else i) ∧
      (∀ a, readRxbuf t.u.rxbuf a =
        if keep = true ∧ 9 ≤ i ∧ i < 9 + s.u.len.toNat ∧ a = i - 9 then b else readRxbuf s.u.rxbuf a) ∧
      t.u.phase = (if last then .done else .recv) ∧
      t.u.status =
        (if last then
          (if t.u.cnt.toNat < 9 then .malformedShort
           else if t.u.cnt.toNat < 9 + t.u.len.toNat then .malformedLength else .ok)
         else s.u.status) ∧
      t.u.valid = (if last then decide (t.u.status = .ok) && decide (t.u.sum = t.u.ckw) else s.u.valid)

/-- Rules R114 and R187 (h): once the declared payload is complete, further bytes only set `U.TRAIL`, however many
there are. -/
def Obligations.TrailingBytesOnlySetTheFlag : Prop :=
  ∀ (s : State) (bs : List (Bool × Byte)),
    s.u.phase = .recv → 9 ≤ s.u.cnt.toNat → s.u.cnt.toNat = 9 + s.u.len.toNat → delivered bs ≠ [] →
    execAll (bs.map (fun x => .rxBeat x.1 false x.2)) s = .next { s with u := { s.u with trail := true } }

/-- Rule R195, with rules R77 and R78: in the window the payload byte, twice the same; outside it some byte, of which
nothing is said; the block's own state is unchanged. The record of replies and the counter of free bytes are the model's
own (notes/assumptions/7.md). -/
def Obligations.RxReadAnswersWithoutChangingTheBlock : Prop :=
  ∀ (s : State) (a : BitVec 16),
    (s.u.phase = .done ∧ s.u.status = .ok ∧ a.toNat < s.u.len.toNat →
      exec (.rxRead a) s = .next { s with reads := s.reads ++ [⟨a, readRxbuf s.u.rxbuf a.toNat⟩] } ∧
      rxRdData? s a = some (readRxbuf s.u.rxbuf a.toNat)) ∧
    (¬ (s.u.phase = .done ∧ s.u.status = .ok ∧ a.toNat < s.u.len.toNat) →
      (∃ v, exec (.rxRead a) s = .next { s with reads := s.reads ++ [⟨a, v⟩], draws := s.draws + 1 }) ∧
      rxRdData? s a = none)

/-- Rule R197: `RX_RELEASE` in `DONE`; every unpacker register then equals its reset value and RXBUF is kept. The last
clause compares with `RESET`, which keeps RXBUF by rules R89 and R250 (notes/assumptions/2.md). -/
def Obligations.RxReleaseClearsTheUnpacker : Prop :=
  ∀ (s : State), s.u.phase = .done →
    exec .rxRelease s = .next
      { s with
        u := { phase := .recv, cnt := 0, type := 0, seq := 0, len := 0, ckw := 0, sum := 0, trail := false,
               status := .ok, valid := false, rxbuf := s.u.rxbuf } } ∧
    (∀ t r, exec .rxRelease s = .next t → exec .reset s = .next r → t.u = r.u)

/-- Rule R184: the transitions of `U.PHASE`, all of them; a header row, being a whole datagram, ends like a `last`
beat (notes/assumptions/5.md). -/
def Obligations.UnpackerPhaseTransitions : Prop :=
  ∀ (i : Instr) (s t : State), exec i s = .next t →
    t.u.phase =
      match s.u.phase, i with
      | .recv, .rxBeat _ last _ => if last then .done else .recv
      | .recv, .hdrData _ _ _ _ => .done
      | .recv, .hdrMetadata _ _ _ _ => .done
      | .recv, .hdrAck _ _ _ _ => .done
      | .recv, .hdrFin _ _ _ _ => .done
      | .recv, .hdrUnknown _ _ _ _ _ => .done
      | .done, .rxRelease => .recv
      | _, .reset => .recv
      | ph, _ => ph

/-- Rule R230: `U.STATUS` and `U.VALID` are written by a `last` beat (a whole datagram ends in one) and by the two
events that clear them, by nothing else. Header rows as datagrams: notes/assumptions/5.md. -/
def Obligations.VerdictIsGivenAtTheLastBeatOnly : Prop :=
  ∀ (i : Instr) (s t : State), exec i s = .next t →
    (t.u.status ≠ s.u.status ∨ t.u.valid ≠ s.u.valid) →
    (∃ keep b, i = .rxBeat keep true b) ∨ (rowDatagram? s.typeCode i).isSome = true ∨ i = .rxRelease ∨ i = .reset

/-! ## The header rows -/

/-- A header row is its datagram, beat by beat (rule R118, `unpack d`), in every state in which the unpacker takes
bytes. That a row stands for a whole datagram is the model's choice (notes/assumptions/5.md). -/
def Obligations.HeaderRowIsItsBeats : Prop :=
  ∀ (s : State) (i : Instr) (d : List Byte) (b : Byte), rowDatagram? s.typeCode i = some (d ++ [b]) →
    s.u.phase = .recv →
    exec i s = execAll (rxDatagramBeats (d.map (fun x => (true, x))) (true, b)) s

/-- Rules R180, R138, R200 for the five header rows: from the start of a datagram each completes, in `DONE`, with the
result that `decode` and `is_valid` give for its bytes; unknown types too (rule R182). That a row stands for a
whole datagram is the model's choice (notes/assumptions/5.md). -/
def Obligations.HeaderRowsCompleteAsDecoded : Prop :=
  ∀ (s : State) (i : Instr) (d : List Byte), rowDatagram? s.typeCode i = some d → s.u.AtStart →
    ∃ t, exec i s = .next t ∧ t = { s with u := t.u } ∧ UnpackedAs d s.u t.u

/-- The frame of the five header rows in any state: nothing outside the unpacker changes, and RXBUF changes only at the
indices between the payload bytes consumed before and after (rules R71, R186). Header rows as datagrams:
notes/assumptions/5.md. -/
def Obligations.HeaderRowFrame : Prop :=
  ∀ (s t : State) (i : Instr) (d : List Byte), rowDatagram? s.typeCode i = some d → exec i s = .next t →
    t = { s with u := t.u } ∧
    ∀ a, (a + 9 < s.u.cnt.toNat ∨ t.u.cnt.toNat ≤ a + 9) → readRxbuf t.u.rxbuf a = readRxbuf s.u.rxbuf a

/-! ## Frames over the whole table -/

/-- Rules R30, R87: an event of one agent changes nothing of the other agent, `TYPE_CODE` or the offers; no event at
all changes `TYPE_CODE`. Header rows as datagrams: notes/assumptions/5.md. -/
def Obligations.EventsChangeTheirOwnAgentOnly : Prop :=
  ∀ (i : Instr) (s t : State), exec i s = .next t →
    t.typeCode = s.typeCode ∧ t.offers = s.offers ∧
    (isPackerEvent i = true → t.u = s.u ∧ t.reads = s.reads ∧ t.draws = s.draws) ∧
    (isUnpackerEvent i = true → t.p = s.p ∧ t.sink = s.sink)

/-- Rules R70, R71, R83, R84, R89: TXBUF is written by `TX_PL_BEAT` alone and never in `EMIT`, RXBUF by received
bytes alone and never in `DONE`; commands, releases, acknowledges and resets keep every cell. Cells over a reset:
notes/assumptions/2.md. Header rows as datagrams: notes/assumptions/5.md. -/
def Obligations.BuffersAreWrittenByTheirStreamsOnly : Prop :=
  ∀ (i : Instr) (s t : State), exec i s = .next t →
    ((∀ keep last b, i ≠ .txPlBeat keep last b) → t.p.txbuf = s.p.txbuf) ∧
    (s.p.phase ≠ .load → t.p.txbuf = s.p.txbuf) ∧
    ((∀ keep last b, i ≠ .rxBeat keep last b) → rowDatagram? s.typeCode i = none → t.u.rxbuf = s.u.rxbuf) ∧
    (s.u.phase = .done → t.u.rxbuf = s.u.rxbuf)

/-- Rule R30: every interleaving of packer events and unpacker events gives the same result for each agent as its own
events alone. An operation of the list whose event is not enabled answers the same state (notes/assumptions/9.md). Header
rows as datagrams: notes/assumptions/5.md. -/
def Obligations.InterleavingDoesNotMatter : Prop :=
  ∀ (is : List Instr) (s a : State), (∀ i ∈ is, isPackerEvent i = true ∨ isUnpackerEvent i = true) →
    execAll (is.filter isPackerEvent) s = .next a →
    ∃ t b, execAll is s = .next t ∧ execAll (is.filter isUnpackerEvent) s = .next b ∧
      t.p = a.p ∧ t.sink = a.sink ∧ t.u = b.u ∧ t.reads = b.reads ∧ t.draws = b.draws

/-! ## The checksum unit -/

/-- Rule R134: one accumulate step is addition modulo 65535, stays in range, and folds to `checksum16`; the corner
cases. -/
def Obligations.CkStepAddsModulo : Prop :=
  (∀ (s : Half) (b : Byte), s.toNat ≤ 65534 →
    (ckStep s b).toNat = (s.toNat + b.toNat) % 65535 ∧ (ckStep s b).toNat ≤ 65534) ∧
  (∀ (p : List Byte) (b : Byte), checksum16 (p ++ [b]) = ckStep (checksum16 p) b) ∧
  checksum16 [] = 0 ∧
  (∀ p : List Byte, p.foldl ckStep 0 = checksum16 p) ∧
  ckStep 65534 1 = 0 ∧ ckStep 65534 255 = 254 ∧ ckStep 65280 255 = 0 ∧ ckStep 177 33 = 210 ∧
  (∀ s : Half, s.toNat ≤ 65534 → ckStep s 0 = s)

/-- Rules R130, R132: the checksum is the integer sum of the bytes reduced modulo 65535, never 65535, and 0 on an exact
multiple. -/
def Obligations.ChecksumIsTheReducedSum : Prop :=
  ∀ p : List Byte,
    (checksum16 p).toNat = (p.map BitVec.toNat).sum % 65535 ∧
    (checksum16 p).toNat ≤ 65534 ∧
    checksum16 p ≠ 0xFFFF#16 ∧
    ((p.map BitVec.toNat).sum % 65535 = 0 → checksum16 p = 0) ∧
    checksum16 (List.replicate 257 0xFF#8) = 0

/-- Rule R136 (a) to (d): concatenation, order, zero bytes, and the change of one byte. -/
def Obligations.ChecksumLaws : Prop :=
  (∀ p q : List Byte, (checksum16 (p ++ q)).toNat = ((checksum16 p).toNat + (checksum16 q).toNat) % 65535) ∧
  (∀ p q : List Byte, p.Perm q → checksum16 p = checksum16 q) ∧
  (∀ p q : List Byte, checksum16 (p ++ 0 :: q) = checksum16 (p ++ q)) ∧
  (∀ (p q : List Byte) (a b : Byte),
    ((checksum16 (p ++ b :: q)).toNat : Int) % 65535 =
      ((checksum16 (p ++ a :: q)).toNat + ((b.toNat : Int) - a.toNat)) % 65535 ∧
    (a ≠ b → checksum16 (p ++ a :: q) ≠ checksum16 (p ++ b :: q)))

/-! ## The function level -/

/-- Rule R150: the bytes and the length of `encode_fields`. -/
def Obligations.EncodedFieldsLayout : Prop :=
  ∀ (t : Byte) (q : SeqBits) (l c : Half) (p : List Byte),
    encodeFields t q l c p =
      [t, q.extractLsb' 24 8, q.extractLsb' 16 8, q.extractLsb' 8 8, q.extractLsb' 0 8,
       l.extractLsb' 8 8, l.extractLsb' 0 8, c.extractLsb' 8 8, c.extractLsb' 0 8] ++ p ∧
    (encodeFields t q l c p).length = 9 + p.length

/-- Rule R180, all of it: a string of fewer than nine bytes is short; any longer string is its five fields laid out, and
what it decodes to is those fields, or the length error when the declared length exceeds the bytes that follow. -/
def Obligations.DecodeOfAnyDatagram : Prop :=
  (∀ d : List Byte, d.length < 9 → decodeDatagram d = .malformedShort) ∧
  (∀ d : List Byte, 9 ≤ d.length →
    d = encodeFields (byteAt d 0) (be32 (byteAt d 1) (byteAt d 2) (byteAt d 3) (byteAt d 4))
          (be16 (byteAt d 5) (byteAt d 6)) (be16 (byteAt d 7) (byteAt d 8)) (d.drop 9)) ∧
  (∀ (t : Byte) (q : SeqBits) (l c : Half) (p : List Byte), p.length < l.toNat →
    decodeDatagram (encodeFields t q l c p) = .malformedLength) ∧
  (∀ (t : Byte) (q : SeqBits) (l c : Half) (p : List Byte), l.toNat ≤ p.length →
    decodeDatagram (encodeFields t q l c p) = .ok
      { typeRaw := t, seq := sint32 q, payloadLength := l, checksum := c, payload := p.take l.toNat,
        trailing := decide (l.toNat < p.length) })

/-- Rule R166, the function level: decoding an encoded well-formed packet gives its fields back, and the decoded packet
is valid when the packet is. Two's complement: notes/assumptions/15.md. -/
def Obligations.DecodeOfEncodeIsThePacket : Prop :=
  ∀ (tc : TypeCode) (pkt : Packet), tc.Injective → pkt.WellFormed →
    ∃ d, decodeDatagram (encodePacket tc pkt) = .ok d ∧
      d.typeRaw = tc.code pkt.type ∧ d.type? tc = some pkt.type ∧ d.seq = pkt.seq ∧
      d.payloadLength = pkt.payloadLength ∧ d.checksum = pkt.checksum ∧ d.payload = pkt.payload ∧
      d.trailing = false ∧ (isValid d = true ↔ pkt.checksum = checksum16 pkt.payload)

/-- Rules R180, R181: the length check is made only when nine bytes are present, and nine bytes decode exactly when
the declared length is 0. -/
def Obligations.ShortIsJudgedBeforeLength : Prop :=
  ∀ d : List Byte,
    (decodeDatagram d = .malformedShort ↔ d.length < 9) ∧
    (decodeDatagram d = .malformedLength ↔
      9 ≤ d.length ∧ d.length - 9 < (be16 (byteAt d 5) (byteAt d 6)).toNat) ∧
    (d.length = 9 → ((∃ pkt, decodeDatagram d = .ok pkt) ↔ be16 (byteAt d 5) (byteAt d 6) = 0))

/-- Rule R114: bytes after the declared payload change nothing of the decoded packet but the trailing mark. -/
def Obligations.TrailingBytesAreNotPartOfThePacket : Prop :=
  ∀ (d x : List Byte) (pkt : DecodedPacket), decodeDatagram d = .ok pkt →
    decodeDatagram (d ++ x) = .ok { pkt with trailing := pkt.trailing || !x.isEmpty }

/-- Rule R141: in a valid datagram, any change of exactly one payload byte, and any change of the checksum field
alone, leaves a datagram that decodes and is not valid. -/
def Obligations.SingleCorruptionIsDetected : Prop :=
  ∀ (d : List Byte) (pkt : DecodedPacket), decodeDatagram d = .ok pkt → isValid pkt = true →
    (∀ i b, 9 ≤ i → i < 9 + pkt.payloadLength.toNat → b ≠ byteAt d i →
      ∃ bad, decodeDatagram (d.set i b) = .ok bad ∧ isValid bad = false) ∧
    (∀ x y, be16 x y ≠ be16 (byteAt d 7) (byteAt d 8) →
      ∃ bad, decodeDatagram ((d.set 7 x).set 8 y) = .ok bad ∧ isValid bad = false)

/-- Rule R112 (d): a stored checksum `0xFFFF` decodes and is never valid, in the function and in the machine, and the
packer's header never carries it. The premise on the state is rule R53. -/
def Obligations.AllOnesChecksumIsNeverValid : Prop :=
  (∀ (d : List Byte) (pkt : DecodedPacket), decodeDatagram d = .ok pkt → pkt.checksum = 0xFFFF → isValid pkt = false) ∧
  (∀ s : State, Inv s → (s.u.valid = true → s.u.ckw ≠ 0xFFFF) ∧
    (s.p.phase = .emit → be16 (hdrByte s.typeCode s.p 7) (hdrByte s.typeCode s.p 8) ≠ 0xFFFF))

/-- Rule R142 (a): changes of the type byte and of `seq` leave a valid datagram valid. -/
def Obligations.TypeAndSeqAreNotProtected : Prop :=
  ∀ (d : List Byte) (pkt : DecodedPacket) (t s1 s2 s3 s4 : Byte), decodeDatagram d = .ok pkt →
    ∃ other, decodeDatagram (((((d.set 0 t).set 1 s1).set 2 s2).set 3 s3).set 4 s4) = .ok other ∧
      other.typeRaw = t ∧ other.seq = sint32 (be32 s1 s2 s3 s4) ∧
      other.payload = pkt.payload ∧ other.checksum = pkt.checksum ∧ isValid other = isValid pkt

/-! ## Refinement -/

/-- Rule R165: the packer realises `pack`, however the payload is cut into beats; an oversize payload is refused. That it
performs no output beat in `ERR` is said by output beats that answer the same state (notes/assumptions/9.md). -/
def Obligations.PackerRealisesPack : Prop :=
  ∀ (s : State) (k : PacketType) (q : SeqBits) (bs : List (Bool × Byte)) (final : Bool × Byte),
    s.p.phase = .idle →
    let p := delivered (bs ++ [final])
    (p.length ≤ 65535 →
      ∃ t, execAll (.txCmd k q :: txPayloadBeats bs final ++ List.replicate (9 + p.length) .txOutBeat) s = .next t ∧
        t.p.phase = .idle ∧ t.u = s.u ∧
        t.sink = s.sink ++ outBeats (pack s.typeCode k (sint32 q) p)) ∧
    (65535 < p.length →
      ∃ t, execAll (.txCmd k q :: txPayloadBeats bs final) s = .next t ∧
        t.p.phase = .err ∧ txErr t = true ∧ t.sink = s.sink ∧
        (∀ n, execAll (List.replicate n .txOutBeat) t = .next t) ∧
        ∃ r, exec .txErrAck t = .next r ∧ r.p.phase = .idle ∧ r.sink = s.sink)

/-- Rule R140: at the end of `LOAD` `P.SUM` is the checksum of the payload, and the datagram the packer emits decodes
to a valid packet. -/
def Obligations.EmittedDatagramIsValid : Prop :=
  ∀ (s : State) (k : PacketType) (q : SeqBits) (bs : List (Bool × Byte)) (final : Bool × Byte),
    s.p.phase = .idle →
    let p := delivered (bs ++ [final])
    p.length ≤ 65535 →
    ∃ t pkt, execAll (.txCmd k q :: txPayloadBeats bs final) s = .next t ∧
      t.p.phase = .emit ∧ t.p.len.toNat = p.length ∧ t.p.sum = checksum16 p ∧
      txPayload t.p.txbuf t.p.len.toNat = p ∧
      decodeDatagram (pack s.typeCode k (sint32 q) p) = .ok pkt ∧ isValid pkt = true ∧ pkt.payload = p

/-- Rule R200: the unpacker realises `decode` and `is_valid`, however the datagram is cut into beats. -/
def Obligations.UnpackerRealisesDecode : Prop :=
  ∀ (s : State) (bs : List (Bool × Byte)) (final : Bool × Byte), s.u.AtStart →
    let d := delivered (bs ++ [final])
    ∃ t, execAll (rxDatagramBeats bs final) s = .next t ∧ t = { s with u := t.u } ∧ UnpackedAs d s.u t.u ∧
      ∀ pkt, decodeDatagram d = .ok pkt → ∀ a : BitVec 16, a.toNat < pkt.payloadLength.toNat →
        rxRdData? t a = some (byteAt pkt.payload a.toNat)

/-- Rules R220 to R224, R228: which conditions a result reports, from the datagram alone: at most one of E1, E2 and E3, and
E4 beside whichever of them applies, or beside none. Nothing is reported before the result: for E1 to E3 that is rule R230;
for E4, which rule R220 has continuously from `U.TYPE`, it is the model's choice, since rule R48 gives `rx_type_known` a
meaning only while `rx_res_valid` is 1 (notes/assumptions/13.md). -/
def Obligations.ConditionsFollowFromTheDatagram : Prop :=
  ∀ (s : State) (bs : List (Bool × Byte)) (final : Bool × Byte), s.u.AtStart →
    let d := delivered (bs ++ [final])
    datagramCondition? s = none ∧ typeCondition? s = none ∧
    ∃ t, execAll (rxDatagramBeats bs final) s = .next t ∧
      datagramCondition? t =
        (if d.length < 9 then some .malformedShort
         else if d.length - 9 < (be16 (byteAt d 5) (byteAt d 6)).toNat then some .malformedLength
         else if checksum16 ((d.drop 9).take (be16 (byteAt d 5) (byteAt d 6)).toNat) = be16 (byteAt d 7) (byteAt d 8) then none
         else some .corrupted) ∧
      (typeCondition? t = none ↔ ∃ k, byteAt d 0 = s.typeCode.code k) ∧
      (typeCondition? t = some .unknownType ↔ ∀ k, byteAt d 0 ≠ s.typeCode.code k) ∧
      packerCondition? t = packerCondition? s

/-- Rule R199: two unpackers at the start of a datagram that receive the same byte string, cut in whatever way and after
whatever history, end with the same registers, and the cells the datagram wrote hold the same bytes. -/
def Obligations.UnpackerResultDependsOnTheDatagramOnly : Prop :=
  ∀ (s s' : State) (bs bs' : List (Bool × Byte)) (final final' : Bool × Byte),
    s.u.AtStart → s'.u.AtStart → delivered (bs ++ [final]) = delivered (bs' ++ [final']) →
    ∃ t t', execAll (rxDatagramBeats bs final) s = .next t ∧ execAll (rxDatagramBeats bs' final') s' = .next t' ∧
      { t.u with rxbuf := [] } = { t'.u with rxbuf := [] } ∧
      ∀ j, j + 9 < t.u.cnt.toNat → readRxbuf t.u.rxbuf j = readRxbuf t'.u.rxbuf j

/-- Rule R163: two packers in `IDLE` with the same `TYPE_CODE`, the same command and the same payload string, cut in
whatever way and after whatever history, emit the same beats. Output beats past the end of the datagram, or after an
overflow, are not enabled (rule R154); that the run still answers a next state there is the model's choice
(notes/assumptions/9.md). -/
def Obligations.PackerOutputDependsOnThePacketOnly : Prop :=
  ∀ (s s' : State) (k : PacketType) (q : SeqBits) (bs bs' : List (Bool × Byte)) (final final' : Bool × Byte),
    s.p.phase = .idle → s'.p.phase = .idle → s.typeCode = s'.typeCode →
    delivered (bs ++ [final]) = delivered (bs' ++ [final']) →
    ∀ n, ∃ t t' out, execAll (.txCmd k q :: txPayloadBeats bs final ++ List.replicate n .txOutBeat) s = .next t ∧
      execAll (.txCmd k q :: txPayloadBeats bs' final' ++ List.replicate n .txOutBeat) s' = .next t' ∧
      t.sink = s.sink ++ out ∧ t'.sink = s'.sink ++ out

/-- Rule R166, the hardware: what the packer emits, fed to the unpacker, is delivered as it was packed. -/
def Obligations.LoopbackDeliversThePacket : Prop :=
  ∀ (s : State) (k : PacketType) (q : SeqBits) (bs : List (Bool × Byte)) (final : Bool × Byte),
    s.p.phase = .idle → s.u.AtStart → s.typeCode.Injective →
    let p := delivered (bs ++ [final])
    p.length ≤ 65535 →
    ∃ t d b, execAll (.txCmd k q :: txPayloadBeats bs final ++ List.replicate (9 + p.length) .txOutBeat) s = .next t ∧
      t.sink = s.sink ++ outBeats (d ++ [b]) ∧
      ∃ r, execAll (rxDatagramBeats (d.map (fun x => (true, x))) (true, b)) t = .next r ∧
        rxResult? r = some
          { status := 0, valid := true, trailing := false, type := s.typeCode.code k, typeKnown := true,
            typeClass := k.classCode, seq := q, len := BitVec.ofNat 16 p.length, cksum := checksum16 p,
            cksumCalc := checksum16 p } ∧
        ∀ a : BitVec 16, a.toNat < p.length → rxRdData? r a = some (byteAt p a.toNat)

/-! ## Invariants -/

/-- Rule R53 at reset; the model's own canonical form and written-cells invariant with it. -/
def Obligations.ResetMeetsTheInvariants : Prop :=
  Inv State.reset ∧ Written State.reset ∧ BuffersCanonical State.reset ∧ Quiescent State.reset

/-- Rule R53 (a) to (i): every step keeps the state invariants, from every state that meets them. -/
def Obligations.StepKeepsTheStateInvariants : Prop :=
  ∀ s t : State, Inv s → step s = .next t → Inv t

/-- Rules R52, R76: every step keeps it that the cells a specified read can reach have been written. -/
def Obligations.StepKeepsReadableCellsWritten : Prop :=
  ∀ s t : State, Inv s → Written s → step s = .next t → Written t

/-- Every step keeps both buffers in canonical form, from any state whatever its registers hold. The form is the model's
choice (notes/assumptions/2.md). -/
def Obligations.StepKeepsBuffersCanonical : Prop :=
  ∀ s t : State, BuffersCanonical s → step s = .next t → BuffersCanonical t

/-- No step from a state that meets the invariants of rule R53 faults or is refused: the block only waits (rules R53 (c),
R72, R243). -/
def Obligations.InvariantStatesAlwaysStep : Prop :=
  ∀ s : State, Inv s → ∃ t, step s = .next t

/-- Rule R76: in a state that meets the invariants, `TX_OUT_BEAT` past the header reads a cell that has been written. -/
def Obligations.TxOutBeatReadsAWrittenCell : Prop :=
  ∀ s : State, Inv s → Written s → s.p.phase = .emit → 9 ≤ s.p.cnt.toNat →
    ∃ b, s.p.txbuf.find? (txLoadIndex s.p) = some b ∧ (txOutBeat? s).map OutBeat.data = some b

/-- Rule R254: a release after a datagram, and the last output beat or the acknowledge after a packet, leave the block
quiescent when the other agent is. -/
def Obligations.TransactionsEndQuiescent : Prop :=
  ∀ s t : State,
    (s.p.phase = .idle → s.u.phase = .done → exec .rxRelease s = .next t → Quiescent t) ∧
    (s.u.phase = .recv ∧ s.u.cnt = 0 ∧ s.u.trail = false → s.p.phase = .err → exec .txErrAck s = .next t →
      Quiescent t) ∧
    (s.u.phase = .recv ∧ s.u.cnt = 0 ∧ s.u.trail = false → s.p.phase = .emit → txOutLast s.p = true →
      exec .txOutBeat s = .next t → Quiescent t)
end

