-- ==== Sys2Proof/Laws/Checksum.lean ====
section
/-!
SUPPORT. Laws/Checksum.lean: the accumulate step over the naturals, and the byte sum.
-/

namespace Sys2Proof.Machine

/-- What one accumulate step does to the number a sum register stands for, for any value of the register. -/
theorem ckStep_toNat (s : Half) (b : Byte) :
    (ckStep s b).toNat = if 65535 ≤ s.toNat + b.toNat then s.toNat + b.toNat - 65535 else s.toNat + b.toNat := by
  have hs := s.isLt
  have hb := b.isLt
  have ht : (s.setWidth 17 + b.setWidth 17).toNat = s.toNat + b.toNat := by
    simp only [BitVec.toNat_add, BitVec.toNat_setWidth]; omega
  unfold ckStep
  simp only [ht, Config.ckMod]
  split_ifs with h
  · have h2 : BitVec.ofNat 17 65535 ≤ s.setWidth 17 + b.setWidth 17 := by
      rw [BitVec.le_def, ht]; simp; omega
    rw [BitVec.toNat_setWidth, BitVec.toNat_sub_of_le h2, ht, BitVec.toNat_ofNat]; omega
  · rw [BitVec.toNat_setWidth, ht]; omega

/-- A reduced sum stays reduced. -/
theorem ckStep_le (s : Half) (b : Byte) (h : s.toNat ≤ 65534) : (ckStep s b).toNat ≤ 65534 := by
  rw [ckStep_toNat]; split_ifs <;> omega

@[simp] theorem byteSum_nil : byteSum [] = 0 := rfl
@[simp] theorem byteSum_cons (b : Byte) (p : List Byte) : byteSum (b :: p) = b.toNat + byteSum p := rfl

@[simp] theorem byteSum_append (p q : List Byte) : byteSum (p ++ q) = byteSum p + byteSum q := by
  induction p with
  | nil => simp
  | cons b p ih => simp [ih, Nat.add_assoc]

theorem checksum16_toNat (p : List Byte) : (checksum16 p).toNat = byteSum p % 65535 := by
  unfold checksum16 Config.ckMod
  rw [BitVec.toNat_ofNat]
  exact Nat.mod_eq_of_lt (lt_trans (Nat.mod_lt _ (by decide)) (by decide))

end Sys2Proof.Machine
end

