-- ==== Sys2Proof/Laws/Encoding.lean ====
section
/-!
SUPPORT. Laws/Encoding.lean: the fields of the words of rules R101, R110 and R111, the type codes (rule R10) and the
classes (rule R103).
-/

namespace Sys2Proof

/-- Under an injective `TYPE_CODE` the type of a code is its type. -/
theorem typeOf?_code (tc : TypeCode) (h : tc.Injective) (k : PacketType) : tc.typeOf? (tc.code k) = some k := by
  obtain ⟨h1, h2, h3, h4, h5, h6⟩ := h
  cases k <;> simp [TypeCode.typeOf?, TypeCode.code, h1.symm, h2.symm, h3.symm, h4.symm, h5.symm, h6.symm]

/-- A byte that has a type is that type's code. -/
theorem eq_code_of_typeOf? (tc : TypeCode) (b : Byte) (k : PacketType) (h : tc.typeOf? b = some k) : b = tc.code k := by
  unfold TypeCode.typeOf? at h
  split_ifs at h <;> · cases h; assumption

@[simp] theorem ofClass_classCode (k : PacketType) : PacketType.ofClass k.classCode = k := by cases k <;> decide
@[simp] theorem classCode_ofClass (c : BitVec 2) : (PacketType.ofClass c).classCode = c := by revert c; decide
@[simp] theorem bitFlag_flagBit (b : Bool) : bitFlag (flagBit b) = b := by cases b <;> decide
@[simp] theorem flagBit_bitFlag (b : BitVec 1) : flagBit (bitFlag b) = b := by revert b; decide

theorem standard_injective : TypeCode.standard.Injective := by decide

theorem headerWord_type (t : Byte) (seq : SeqBits) (len ck : Half) : (headerWord t seq len ck).extractLsb' 64 8 = t := by
  show BitVec.extractLsb' 64 8 (t ++ seq ++ len ++ ck : BitVec (8+32+16+16)) = t
  apply BitVec.eq_of_getLsbD_eq; intro i hi
  simp only [BitVec.getLsbD_append, BitVec.getLsbD_extractLsb', hi, decide_true, Bool.true_and]
  split_ifs <;> first | omega | (congr 1; omega)

theorem headerWord_seq (t : Byte) (seq : SeqBits) (len ck : Half) : (headerWord t seq len ck).extractLsb' 32 32 = seq := by
  show BitVec.extractLsb' 32 32 (t ++ seq ++ len ++ ck : BitVec (8+32+16+16)) = _
  apply BitVec.eq_of_getLsbD_eq; intro i hi
  simp only [BitVec.getLsbD_append, BitVec.getLsbD_extractLsb', hi, decide_true, Bool.true_and]
  split_ifs <;> first | omega | (congr 1; omega)

theorem headerWord_len (t : Byte) (seq : SeqBits) (len ck : Half) : (headerWord t seq len ck).extractLsb' 16 16 = len := by
  show BitVec.extractLsb' 16 16 (t ++ seq ++ len ++ ck : BitVec (8+32+16+16)) = _
  apply BitVec.eq_of_getLsbD_eq; intro i hi
  simp only [BitVec.getLsbD_append, BitVec.getLsbD_extractLsb', hi, decide_true, Bool.true_and]
  split_ifs <;> first | omega | (congr 1; omega)

theorem headerWord_ck (t : Byte) (seq : SeqBits) (len ck : Half) : (headerWord t seq len ck).extractLsb' 0 16 = ck := by
  show BitVec.extractLsb' 0 16 (t ++ seq ++ len ++ ck : BitVec (8+32+16+16)) = _
  apply BitVec.eq_of_getLsbD_eq; intro i hi
  simp only [BitVec.getLsbD_append, BitVec.getLsbD_extractLsb', hi, decide_true, Bool.true_and]
  split_ifs <;> first | omega | (congr 1; omega)

theorem headerWord_of_fields (h : HeaderWord) :
    headerWord (h.extractLsb' 64 8) (h.extractLsb' 32 32) (h.extractLsb' 16 16) (h.extractLsb' 0 16) = h := by
  show (h.extractLsb' 64 8 ++ h.extractLsb' 32 32 ++ h.extractLsb' 16 16 ++ h.extractLsb' 0 16 : BitVec (8+32+16+16)) = h
  apply BitVec.eq_of_getLsbD_eq; intro i hi
  simp only [BitVec.getLsbD_append, BitVec.getLsbD_extractLsb']
  split_ifs with h1 h2 h3
  · simp [h1]
  · simp [h2]; congr 1; omega
  · simp [h3]; congr 1; omega
  · have : i - 16 - 16 - 32 < 8 := by omega
    simp [this]; congr 1; omega

theorem streamWord_keep (k l : Bool) (b : Byte) : BitVec.extractLsb' 9 1 (flagBit k ++ flagBit l ++ b) = flagBit k := by
  show BitVec.extractLsb' 9 1 (flagBit k ++ flagBit l ++ b : BitVec (1+1+8)) = _
  apply BitVec.eq_of_getLsbD_eq; intro i hi
  simp only [BitVec.getLsbD_append, BitVec.getLsbD_extractLsb', hi, decide_true, Bool.true_and]
  split_ifs <;> first | omega | (congr 1; omega)

theorem streamWord_last (k l : Bool) (b : Byte) : BitVec.extractLsb' 8 1 (flagBit k ++ flagBit l ++ b) = flagBit l := by
  show BitVec.extractLsb' 8 1 (flagBit k ++ flagBit l ++ b : BitVec (1+1+8)) = _
  apply BitVec.eq_of_getLsbD_eq; intro i hi
  simp only [BitVec.getLsbD_append, BitVec.getLsbD_extractLsb', hi, decide_true, Bool.true_and]
  split_ifs <;> first | omega | (congr 1; omega)

theorem streamWord_data (k l : Bool) (b : Byte) : BitVec.extractLsb' 0 8 (flagBit k ++ flagBit l ++ b) = b := by
  show BitVec.extractLsb' 0 8 (flagBit k ++ flagBit l ++ b : BitVec (1+1+8)) = _
  apply BitVec.eq_of_getLsbD_eq; intro i hi
  simp only [BitVec.getLsbD_append, BitVec.getLsbD_extractLsb', hi, decide_true, Bool.true_and]
  split_ifs <;> first | omega | (congr 1; omega)

theorem streamWord_of_fields (w : BitVec 10) : w.extractLsb' 9 1 ++ w.extractLsb' 8 1 ++ w.extractLsb' 0 8 = w := by
  apply BitVec.eq_of_getLsbD_eq; intro i hi
  simp only [BitVec.getLsbD_append, BitVec.getLsbD_extractLsb']
  split_ifs with h1 h2
  · simp [h1]
  · simp [h2]; congr 1; omega
  · have : i - 8 - 1 < 1 := by omega
    simp [this]; congr 1; omega

theorem commandWord_class (c : BitVec 2) (q : SeqBits) : BitVec.extractLsb' 32 2 (c ++ q) = c := by
  apply BitVec.eq_of_getLsbD_eq; intro i hi
  simp only [BitVec.getLsbD_append, BitVec.getLsbD_extractLsb', hi, decide_true, Bool.true_and]
  split_ifs <;> first | omega | (congr 1; omega)

theorem commandWord_seq (c : BitVec 2) (q : SeqBits) : BitVec.extractLsb' 0 32 (c ++ q) = q := by
  apply BitVec.eq_of_getLsbD_eq; intro i hi
  simp only [BitVec.getLsbD_append, BitVec.getLsbD_extractLsb', hi, decide_true, Bool.true_and]
  split_ifs <;> first | omega | (congr 1; omega)

theorem commandWord_of_fields (w : BitVec 34) : w.extractLsb' 32 2 ++ w.extractLsb' 0 32 = w := by
  apply BitVec.eq_of_getLsbD_eq; intro i hi
  simp only [BitVec.getLsbD_append, BitVec.getLsbD_extractLsb']
  split_ifs with h1
  · simp [h1]
  · have : i - 32 < 2 := by omega
    simp [this]; congr 1; omega

theorem be16_bytes (v : Half) : be16 (v.extractLsb' 8 8) (v.extractLsb' 0 8) = v := by
  apply BitVec.eq_of_getLsbD_eq; intro i hi
  simp only [be16, BitVec.getLsbD_append, BitVec.getLsbD_extractLsb']
  split_ifs with h1
  · simp [h1]
  · have : i - 8 < 8 := by omega
    simp [this]; congr 1; omega

theorem be32_bytes (v : SeqBits) :
    be32 (v.extractLsb' 24 8) (v.extractLsb' 16 8) (v.extractLsb' 8 8) (v.extractLsb' 0 8) = v := by
  apply BitVec.eq_of_getLsbD_eq; intro i hi
  simp only [be32, BitVec.getLsbD_append, BitVec.getLsbD_extractLsb']
  split_ifs with h1 h2 h3
  · simp [h1]
  · simp [h2]; congr 1; omega
  · simp [h3]; congr 1; omega
  · have : i - 8 - 8 - 8 < 8 := by omega
    simp [this]; congr 1; omega

/-- The two's complement number of rules R15 and R104 is the signed value of the bits. -/
theorem sint32_eq_toInt (v : SeqBits) : sint32 v = v.toInt := by
  unfold sint32; rw [BitVec.toInt_eq_msb_cond, BitVec.msb_eq_getLsbD_last]; rfl

@[simp] theorem twos32_sint32 (v : SeqBits) : twos32 (sint32 v) = v := by
  rw [sint32_eq_toInt]; exact BitVec.ofInt_toInt

end Sys2Proof
end

