-- ==== Sys2Proof/Laws/State.lean ====
section
/-!
SUPPORT. Laws/State.lean: one lemma per field per named update of the state, of the packer and of the unpacker, so
that no later proof unfolds a record update.
-/

namespace Sys2Proof.Machine

@[simp] theorem State.setPacker_p (s : State) (p : Packer) : (State.setPacker s p).p = p := rfl
@[simp] theorem State.setPacker_u (s : State) (p : Packer) : (State.setPacker s p).u = s.u := rfl
@[simp] theorem State.setPacker_typeCode (s : State) (p : Packer) : (State.setPacker s p).typeCode = s.typeCode := rfl
@[simp] theorem State.setPacker_offers (s : State) (p : Packer) : (State.setPacker s p).offers = s.offers := rfl
@[simp] theorem State.setPacker_sink (s : State) (p : Packer) : (State.setPacker s p).sink = s.sink := rfl
@[simp] theorem State.setPacker_reads (s : State) (p : Packer) : (State.setPacker s p).reads = s.reads := rfl
@[simp] theorem State.setPacker_draws (s : State) (p : Packer) : (State.setPacker s p).draws = s.draws := rfl

@[simp] theorem State.setUnpacker_p (s : State) (u : Unpacker) : (State.setUnpacker s u).p = s.p := rfl
@[simp] theorem State.setUnpacker_u (s : State) (u : Unpacker) : (State.setUnpacker s u).u = u := rfl
@[simp] theorem State.setUnpacker_typeCode (s : State) (u : Unpacker) : (State.setUnpacker s u).typeCode = s.typeCode := rfl
@[simp] theorem State.setUnpacker_offers (s : State) (u : Unpacker) : (State.setUnpacker s u).offers = s.offers := rfl
@[simp] theorem State.setUnpacker_sink (s : State) (u : Unpacker) : (State.setUnpacker s u).sink = s.sink := rfl
@[simp] theorem State.setUnpacker_reads (s : State) (u : Unpacker) : (State.setUnpacker s u).reads = s.reads := rfl
@[simp] theorem State.setUnpacker_draws (s : State) (u : Unpacker) : (State.setUnpacker s u).draws = s.draws := rfl

@[simp] theorem State.emitBeat_p (s : State) (b : OutBeat) : (State.emitBeat s b).p = s.p := rfl
@[simp] theorem State.emitBeat_u (s : State) (b : OutBeat) : (State.emitBeat s b).u = s.u := rfl
@[simp] theorem State.emitBeat_typeCode (s : State) (b : OutBeat) : (State.emitBeat s b).typeCode = s.typeCode := rfl
@[simp] theorem State.emitBeat_offers (s : State) (b : OutBeat) : (State.emitBeat s b).offers = s.offers := rfl
@[simp] theorem State.emitBeat_sink (s : State) (b : OutBeat) : (State.emitBeat s b).sink = s.sink ++ [b] := rfl
@[simp] theorem State.emitBeat_reads (s : State) (b : OutBeat) : (State.emitBeat s b).reads = s.reads := rfl
@[simp] theorem State.emitBeat_draws (s : State) (b : OutBeat) : (State.emitBeat s b).draws = s.draws := rfl

@[simp] theorem State.reply_p (s : State) (a : BitVec 16) (b : Byte) : (State.reply s a b).p = s.p := rfl
@[simp] theorem State.reply_u (s : State) (a : BitVec 16) (b : Byte) : (State.reply s a b).u = s.u := rfl
@[simp] theorem State.reply_typeCode (s : State) (a : BitVec 16) (b : Byte) : (State.reply s a b).typeCode = s.typeCode := rfl
@[simp] theorem State.reply_offers (s : State) (a : BitVec 16) (b : Byte) : (State.reply s a b).offers = s.offers := rfl
@[simp] theorem State.reply_sink (s : State) (a : BitVec 16) (b : Byte) : (State.reply s a b).sink = s.sink := rfl
@[simp] theorem State.reply_reads (s : State) (a : BitVec 16) (b : Byte) : (State.reply s a b).reads = s.reads ++ [⟨a, b⟩] := rfl
@[simp] theorem State.reply_draws (s : State) (a : BitVec 16) (b : Byte) : (State.reply s a b).draws = s.draws := rfl

@[simp] theorem State.drawn_p (s : State) : (State.drawn s).p = s.p := rfl
@[simp] theorem State.drawn_u (s : State) : (State.drawn s).u = s.u := rfl
@[simp] theorem State.drawn_typeCode (s : State) : (State.drawn s).typeCode = s.typeCode := rfl
@[simp] theorem State.drawn_offers (s : State) : (State.drawn s).offers = s.offers := rfl
@[simp] theorem State.drawn_sink (s : State) : (State.drawn s).sink = s.sink := rfl
@[simp] theorem State.drawn_reads (s : State) : (State.drawn s).reads = s.reads := rfl
@[simp] theorem State.drawn_draws (s : State) : (State.drawn s).draws = s.draws + 1 := rfl

@[simp] theorem State.setOffers_p (s : State) (ws : List PortWord) : (State.setOffers s ws).p = s.p := rfl
@[simp] theorem State.setOffers_u (s : State) (ws : List PortWord) : (State.setOffers s ws).u = s.u := rfl
@[simp] theorem State.setOffers_typeCode (s : State) (ws : List PortWord) : (State.setOffers s ws).typeCode = s.typeCode := rfl
@[simp] theorem State.setOffers_offers (s : State) (ws : List PortWord) : (State.setOffers s ws).offers = ws := rfl
@[simp] theorem State.setOffers_sink (s : State) (ws : List PortWord) : (State.setOffers s ws).sink = s.sink := rfl
@[simp] theorem State.setOffers_reads (s : State) (ws : List PortWord) : (State.setOffers s ws).reads = s.reads := rfl
@[simp] theorem State.setOffers_draws (s : State) (ws : List PortWord) : (State.setOffers s ws).draws = s.draws := rfl

@[simp] theorem Packer.enterErr_phase (p : Packer) : (Packer.enterErr p).phase = .err := rfl
@[simp] theorem Packer.enterErr_type (p : Packer) : (Packer.enterErr p).type = p.type := rfl
@[simp] theorem Packer.enterErr_seq (p : Packer) : (Packer.enterErr p).seq = p.seq := rfl
@[simp] theorem Packer.enterErr_len (p : Packer) : (Packer.enterErr p).len = p.len := rfl
@[simp] theorem Packer.enterErr_sum (p : Packer) : (Packer.enterErr p).sum = p.sum := rfl
@[simp] theorem Packer.enterErr_cnt (p : Packer) : (Packer.enterErr p).cnt = p.cnt := rfl
@[simp] theorem Packer.enterErr_ovf (p : Packer) : (Packer.enterErr p).ovf = p.ovf := rfl
@[simp] theorem Packer.enterErr_txbuf (p : Packer) : (Packer.enterErr p).txbuf = p.txbuf := rfl

@[simp] theorem Packer.enterEmit_phase (p : Packer) : (Packer.enterEmit p).phase = .emit := rfl
@[simp] theorem Packer.enterEmit_type (p : Packer) : (Packer.enterEmit p).type = p.type := rfl
@[simp] theorem Packer.enterEmit_seq (p : Packer) : (Packer.enterEmit p).seq = p.seq := rfl
@[simp] theorem Packer.enterEmit_len (p : Packer) : (Packer.enterEmit p).len = p.len := rfl
@[simp] theorem Packer.enterEmit_sum (p : Packer) : (Packer.enterEmit p).sum = p.sum := rfl
@[simp] theorem Packer.enterEmit_cnt (p : Packer) : (Packer.enterEmit p).cnt = 0 := rfl
@[simp] theorem Packer.enterEmit_ovf (p : Packer) : (Packer.enterEmit p).ovf = p.ovf := rfl
@[simp] theorem Packer.enterEmit_txbuf (p : Packer) : (Packer.enterEmit p).txbuf = p.txbuf := rfl

@[simp] theorem Packer.leaveErr_phase (p : Packer) : (Packer.leaveErr p).phase = .idle := rfl
@[simp] theorem Packer.leaveErr_type (p : Packer) : (Packer.leaveErr p).type = p.type := rfl
@[simp] theorem Packer.leaveErr_seq (p : Packer) : (Packer.leaveErr p).seq = p.seq := rfl
@[simp] theorem Packer.leaveErr_len (p : Packer) : (Packer.leaveErr p).len = p.len := rfl
@[simp] theorem Packer.leaveErr_sum (p : Packer) : (Packer.leaveErr p).sum = p.sum := rfl
@[simp] theorem Packer.leaveErr_cnt (p : Packer) : (Packer.leaveErr p).cnt = p.cnt := rfl
@[simp] theorem Packer.leaveErr_ovf (p : Packer) : (Packer.leaveErr p).ovf = false := rfl
@[simp] theorem Packer.leaveErr_txbuf (p : Packer) : (Packer.leaveErr p).txbuf = p.txbuf := rfl

@[simp] theorem Packer.command_phase (p : Packer) (t : PacketType) (q : SeqBits) : (Packer.command p t q).phase = .load := rfl
@[simp] theorem Packer.command_type (p : Packer) (t : PacketType) (q : SeqBits) : (Packer.command p t q).type = t := rfl
@[simp] theorem Packer.command_seq (p : Packer) (t : PacketType) (q : SeqBits) : (Packer.command p t q).seq = q := rfl
@[simp] theorem Packer.command_len (p : Packer) (t : PacketType) (q : SeqBits) : (Packer.command p t q).len = 0 := rfl
@[simp] theorem Packer.command_sum (p : Packer) (t : PacketType) (q : SeqBits) : (Packer.command p t q).sum = 0 := rfl
@[simp] theorem Packer.command_cnt (p : Packer) (t : PacketType) (q : SeqBits) : (Packer.command p t q).cnt = 0 := rfl
@[simp] theorem Packer.command_ovf (p : Packer) (t : PacketType) (q : SeqBits) : (Packer.command p t q).ovf = false := rfl
@[simp] theorem Packer.command_txbuf (p : Packer) (t : PacketType) (q : SeqBits) : (Packer.command p t q).txbuf = p.txbuf := rfl

@[simp] theorem Packer.cleared_phase (m : Memory) : (Packer.cleared m).phase = .idle := rfl
@[simp] theorem Packer.cleared_type (m : Memory) : (Packer.cleared m).type = .data := rfl
@[simp] theorem Packer.cleared_seq (m : Memory) : (Packer.cleared m).seq = 0 := rfl
@[simp] theorem Packer.cleared_len (m : Memory) : (Packer.cleared m).len = 0 := rfl
@[simp] theorem Packer.cleared_sum (m : Memory) : (Packer.cleared m).sum = 0 := rfl
@[simp] theorem Packer.cleared_cnt (m : Memory) : (Packer.cleared m).cnt = 0 := rfl
@[simp] theorem Packer.cleared_ovf (m : Memory) : (Packer.cleared m).ovf = false := rfl
@[simp] theorem Packer.cleared_txbuf (m : Memory) : (Packer.cleared m).txbuf = m := rfl

@[simp] theorem Unpacker.enterDone_phase (u : Unpacker) (st : Status) (v : Bool) : (Unpacker.enterDone u st v).phase = .done := rfl
@[simp] theorem Unpacker.enterDone_cnt (u : Unpacker) (st : Status) (v : Bool) : (Unpacker.enterDone u st v).cnt = u.cnt := rfl
@[simp] theorem Unpacker.enterDone_type (u : Unpacker) (st : Status) (v : Bool) : (Unpacker.enterDone u st v).type = u.type := rfl
@[simp] theorem Unpacker.enterDone_seq (u : Unpacker) (st : Status) (v : Bool) : (Unpacker.enterDone u st v).seq = u.seq := rfl
@[simp] theorem Unpacker.enterDone_len (u : Unpacker) (st : Status) (v : Bool) : (Unpacker.enterDone u st v).len = u.len := rfl
@[simp] theorem Unpacker.enterDone_ckw (u : Unpacker) (st : Status) (v : Bool) : (Unpacker.enterDone u st v).ckw = u.ckw := rfl
@[simp] theorem Unpacker.enterDone_sum (u : Unpacker) (st : Status) (v : Bool) : (Unpacker.enterDone u st v).sum = u.sum := rfl
@[simp] theorem Unpacker.enterDone_trail (u : Unpacker) (st : Status) (v : Bool) : (Unpacker.enterDone u st v).trail = u.trail := rfl
@[simp] theorem Unpacker.enterDone_status (u : Unpacker) (st : Status) (v : Bool) : (Unpacker.enterDone u st v).status = st := rfl
@[simp] theorem Unpacker.enterDone_valid (u : Unpacker) (st : Status) (v : Bool) : (Unpacker.enterDone u st v).valid = v := rfl
@[simp] theorem Unpacker.enterDone_rxbuf (u : Unpacker) (st : Status) (v : Bool) : (Unpacker.enterDone u st v).rxbuf = u.rxbuf := rfl

@[simp] theorem Unpacker.cleared_phase (m : Memory) : (Unpacker.cleared m).phase = .recv := rfl
@[simp] theorem Unpacker.cleared_cnt (m : Memory) : (Unpacker.cleared m).cnt = 0 := rfl
@[simp] theorem Unpacker.cleared_type (m : Memory) : (Unpacker.cleared m).type = 0 := rfl
@[simp] theorem Unpacker.cleared_seq (m : Memory) : (Unpacker.cleared m).seq = 0 := rfl
@[simp] theorem Unpacker.cleared_len (m : Memory) : (Unpacker.cleared m).len = 0 := rfl
@[simp] theorem Unpacker.cleared_ckw (m : Memory) : (Unpacker.cleared m).ckw = 0 := rfl
@[simp] theorem Unpacker.cleared_sum (m : Memory) : (Unpacker.cleared m).sum = 0 := rfl
@[simp] theorem Unpacker.cleared_trail (m : Memory) : (Unpacker.cleared m).trail = false := rfl
@[simp] theorem Unpacker.cleared_status (m : Memory) : (Unpacker.cleared m).status = .ok := rfl
@[simp] theorem Unpacker.cleared_valid (m : Memory) : (Unpacker.cleared m).valid = false := rfl
@[simp] theorem Unpacker.cleared_rxbuf (m : Memory) : (Unpacker.cleared m).rxbuf = m := rfl

@[simp] theorem Unpacker.release_phase (u : Unpacker) : (Unpacker.release u).phase = .recv := rfl
@[simp] theorem Unpacker.release_cnt (u : Unpacker) : (Unpacker.release u).cnt = 0 := rfl
@[simp] theorem Unpacker.release_type (u : Unpacker) : (Unpacker.release u).type = 0 := rfl
@[simp] theorem Unpacker.release_seq (u : Unpacker) : (Unpacker.release u).seq = 0 := rfl
@[simp] theorem Unpacker.release_len (u : Unpacker) : (Unpacker.release u).len = 0 := rfl
@[simp] theorem Unpacker.release_ckw (u : Unpacker) : (Unpacker.release u).ckw = 0 := rfl
@[simp] theorem Unpacker.release_sum (u : Unpacker) : (Unpacker.release u).sum = 0 := rfl
@[simp] theorem Unpacker.release_trail (u : Unpacker) : (Unpacker.release u).trail = false := rfl
@[simp] theorem Unpacker.release_status (u : Unpacker) : (Unpacker.release u).status = .ok := rfl
@[simp] theorem Unpacker.release_valid (u : Unpacker) : (Unpacker.release u).valid = false := rfl
@[simp] theorem Unpacker.release_rxbuf (u : Unpacker) : (Unpacker.release u).rxbuf = u.rxbuf := rfl

end Sys2Proof.Machine
end

