-- ==== Sys2Proof/Laws/Memory.lean ====
section
/-!
SUPPORT. Laws/Memory.lean: the buffers: a read after a write, and the canonical form.
-/

namespace Sys2Proof.Machine

@[simp] theorem find?_nil (i : Nat) : Memory.find? [] i = none := rfl

@[simp] theorem find?_cons (a : Nat) (b : Byte) (m : Memory) (i : Nat) :
    Memory.find? ((a, b) :: m) i = if a = i then some b else m.find? i := rfl

/-- A write gives the written cell its byte and leaves every other cell alone, whatever form the list has. -/
@[simp] theorem find?_write (m : Memory) (i : Nat) (v : Byte) (j : Nat) :
    (m.write i v).find? j = if i = j then some v else m.find? j := by
  induction m with
  | nil => simp [Memory.write]
  | cons c m ih =>
    obtain ⟨a, b⟩ := c
    simp only [Memory.write]
    by_cases h1 : i < a
    · simp only [h1, if_true, find?_cons]
    · by_cases h2 : i = a
      · subst h2; simp only [lt_irrefl, if_false, if_true, find?_cons]; split_ifs <;> rfl
      · simp only [h1, h2, if_false, find?_cons, ih]
        split_ifs <;> first | rfl | omega

theorem readTxbuf_write (m : Memory) (i : Nat) (v : Byte) (j : Nat) :
    readTxbuf (m.write i v) j = if j = i then v else readTxbuf m j := by
  unfold readTxbuf; rw [find?_write]; split_ifs <;> simp_all

theorem readRxbuf_write (m : Memory) (i : Nat) (v : Byte) (j : Nat) :
    readRxbuf (m.write i v) j = if j = i then v else readRxbuf m j := by
  unfold readRxbuf; rw [find?_write]; split_ifs <;> simp_all

theorem wf_nil : Memory.wf [] = true := rfl

theorem wfFrom_cons (lo a : Nat) (b : Byte) (m : Memory) :
    Memory.wfFrom lo ((a, b) :: m) = true ↔ lo ≤ a ∧ a < 65535 ∧ Memory.wfFrom (a + 1) m = true := by
  simp only [Memory.wfFrom, Config.maxPayload, Bool.and_eq_true, decide_eq_true_eq, and_assoc]

/-- A write to a cell keeps the canonical form. -/
theorem wfFrom_write (m : Memory) (lo i : Nat) (v : Byte) (h : m.wfFrom lo = true) (hlo : lo ≤ i) (hi : i < 65535) :
    (m.write i v).wfFrom lo = true := by
  induction m generalizing lo with
  | nil => simp [Memory.write, Memory.wfFrom, Config.maxPayload, hlo, hi]
  | cons c m ih =>
    obtain ⟨a, b⟩ := c
    rw [wfFrom_cons] at h
    obtain ⟨h1, h2, h3⟩ := h
    simp only [Memory.write]
    split_ifs with h4 h5
    · simp only [wfFrom_cons]; exact ⟨hlo, hi, by omega, h2, h3⟩
    · subst h5; simp only [wfFrom_cons]; exact ⟨hlo, hi, h3⟩
    · simp only [wfFrom_cons]; exact ⟨h1, h2, ih (a + 1) h3 (by omega)⟩

theorem wf_write (m : Memory) (i : Nat) (v : Byte) (h : m.wf = true) (hi : i < 65535) : (m.write i v).wf = true :=
  wfFrom_write m 0 i v h (Nat.zero_le i) hi

/-- The string of the first `n + 1` cells after a write to cell `n`. -/
theorem txPayload_write (m : Memory) (n : Nat) (v : Byte) : txPayload (m.write n v) (n + 1) = txPayload m n ++ [v] := by
  have h : (List.range n).map (readTxbuf (m.write n v)) = (List.range n).map (readTxbuf m) := by
    refine List.map_congr_left fun a ha => ?_
    rw [readTxbuf_write, if_neg (Nat.ne_of_lt (List.mem_range.mp ha))]
  simp [txPayload, List.range_succ, h, readTxbuf_write]

/-- The string of the first `n + 1` cells after a write to cell `n`. -/
theorem rxPayload_write (m : Memory) (n : Nat) (v : Byte) : rxPayload (m.write n v) (n + 1) = rxPayload m n ++ [v] := by
  have h : (List.range n).map (readRxbuf (m.write n v)) = (List.range n).map (readRxbuf m) := by
    refine List.map_congr_left fun a ha => ?_
    rw [readRxbuf_write, if_neg (Nat.ne_of_lt (List.mem_range.mp ha))]
  simp [rxPayload, List.range_succ, h, readRxbuf_write]

@[simp] theorem txPayload_zero (m : Memory) : txPayload m 0 = [] := rfl
@[simp] theorem rxPayload_zero (m : Memory) : rxPayload m 0 = [] := rfl
@[simp] theorem txPayload_length (m : Memory) (n : Nat) : (txPayload m n).length = n := by simp [txPayload]
@[simp] theorem rxPayload_length (m : Memory) (n : Nat) : (rxPayload m n).length = n := by simp [rxPayload]

end Sys2Proof.Machine
end

