-- ==== Sys2Proof/Laws/Unpacker.lean ====
section
/-!
SUPPORT. Laws/Unpacker.lean: what one received byte does to the unpacker, said once over all its registers, and what
a run of beats does.
-/

namespace Sys2Proof.Machine

@[simp] theorem setUnpacker_setUnpacker (s : State) (p q : Unpacker) : (s.setUnpacker p).setUnpacker q = s.setUnpacker q := rfl

@[simp] theorem setUnpacker_self (s : State) : s.setUnpacker s.u = s := rfl

/-- Everything one received byte can do (rules R109, R186), register by register. -/
theorem Unpacker.takeByte_fields (u : Unpacker) (b : Byte) :
    let i := u.cnt.toNat
    let v := u.takeByte b
    v.phase = u.phase ∧ v.status = u.status ∧ v.valid = u.valid ∧
      v.type = (if i = 0 then b else u.type) ∧
      v.seq = (if 1 ≤ i ∧ i ≤ 4 then shiftIn32 u.seq b else u.seq) ∧
      v.len = (if 5 ≤ i ∧ i ≤ 6 then shiftIn16 u.len b else u.len) ∧
      v.ckw = (if 7 ≤ i ∧ i ≤ 8 then shiftIn16 u.ckw b else u.ckw) ∧
      v.sum = (if 9 ≤ i ∧ i < 9 + u.len.toNat then ckStep u.sum b else u.sum) ∧
      v.trail = (u.trail || decide (9 ≤ i ∧ 9 + u.len.toNat ≤ i)) ∧
      v.cnt.toNat = (if i < 9 ∨ i < 9 + u.len.toNat then i + 1 else i) ∧
      v.rxbuf = (if 9 ≤ i ∧ i < 9 + u.len.toNat then u.rxbuf.write (i - 9) b else u.rxbuf) := by
  intro i v
  have hl := u.len.isLt
  have hc : u.cnt.toNat = i := rfl
  have hadd : i < 9 ∨ i < 9 + u.len.toNat → (u.cnt + 1).toNat = i + 1 := by
    intro h; rw [BitVec.toNat_add]; simp; omega
  have hv : v = u.takeByte b := rfl
  unfold Unpacker.takeByte byteRole Config.hdrLen at hv
  rw [hc] at hv
  have fin : ∀ w : Unpacker, w = v → (w.phase = u.phase ∧ w.status = u.status ∧ w.valid = u.valid ∧
      w.type = (if i = 0 then b else u.type) ∧
      w.seq = (if 1 ≤ i ∧ i ≤ 4 then shiftIn32 u.seq b else u.seq) ∧
      w.len = (if 5 ≤ i ∧ i ≤ 6 then shiftIn16 u.len b else u.len) ∧
      w.ckw = (if 7 ≤ i ∧ i ≤ 8 then shiftIn16 u.ckw b else u.ckw) ∧
      w.sum = (if 9 ≤ i ∧ i < 9 + u.len.toNat then ckStep u.sum b else u.sum) ∧
      w.trail = (u.trail || decide (9 ≤ i ∧ 9 + u.len.toNat ≤ i)) ∧
      w.cnt.toNat = (if i < 9 ∨ i < 9 + u.len.toNat then i + 1 else i) ∧
      w.rxbuf = (if 9 ≤ i ∧ i < 9 + u.len.toNat then u.rxbuf.write (i - 9) b else u.rxbuf)) → _ := fun w h1 h2 => h1 ▸ h2
  by_cases h0 : i = 0
  · have : u.cnt = 0 := by apply BitVec.eq_of_toNat_eq; simpa [hc] using h0
    simp only [h0, if_true] at hv
    refine fin _ hv.symm ⟨rfl, rfl, rfl, ?_, ?_, ?_, ?_, ?_, ?_, ?_, ?_⟩ <;> simp [h0]
  simp only [h0, if_false] at hv
  by_cases h1 : i ≤ 4
  · simp only [h1, if_true] at hv
    refine fin _ hv.symm ⟨rfl, rfl, rfl, ?_, ?_, ?_, ?_, ?_, ?_, ?_, ?_⟩ <;>
      first | exact (if_pos (by omega)).symm | exact (if_neg (by omega)).symm | exact (hadd (by omega)).trans (if_pos (by omega)).symm | (rw [decide_eq_false (by omega)]; simp)
  simp only [h1, if_false] at hv
  by_cases h2 : i ≤ 6
  · simp only [h2, if_true] at hv
    refine fin _ hv.symm ⟨rfl, rfl, rfl, ?_, ?_, ?_, ?_, ?_, ?_, ?_, ?_⟩ <;>
      first | exact (if_pos (by omega)).symm | exact (if_neg (by omega)).symm | exact (hadd (by omega)).trans (if_pos (by omega)).symm | (rw [decide_eq_false (by omega)]; simp)
  simp only [h2, if_false] at hv
  by_cases h3 : i ≤ 8
  · simp only [h3, if_true] at hv
    refine fin _ hv.symm ⟨rfl, rfl, rfl, ?_, ?_, ?_, ?_, ?_, ?_, ?_, ?_⟩ <;>
      first | exact (if_pos (by omega)).symm | exact (if_neg (by omega)).symm | exact (hadd (by omega)).trans (if_pos (by omega)).symm | (rw [decide_eq_false (by omega)]; simp)
  simp only [h3, if_false] at hv
  by_cases h4 : i < 9 + u.len.toNat
  · simp only [h4, if_true] at hv
    refine fin _ hv.symm ⟨rfl, rfl, rfl, ?_, ?_, ?_, ?_, ?_, ?_, ?_, ?_⟩ <;>
      first | exact (if_pos (by omega)).symm | exact (if_neg (by omega)).symm | exact (hadd (by omega)).trans (if_pos (by omega)).symm | (rw [decide_eq_false (by omega)]; simp)
  · simp only [h4, if_false] at hv
    refine fin _ hv.symm ⟨rfl, rfl, rfl, ?_, ?_, ?_, ?_, ?_, ?_, ?_, ?_⟩ <;>
      first | exact (if_pos (by omega)).symm | exact (if_neg (by omega)).symm | (rw [decide_eq_true (by omega)]; simp)

/-- A beat that is not last leaves the phase alone. -/
theorem Unpacker.beat_phase (u : Unpacker) (k : Bool) (b : Byte) : (u.beat k false b).phase = u.phase := by
  cases k
  · rfl
  · exact (Unpacker.takeByte_fields u b).1

/-- A received byte past the declared payload only sets `U.TRAIL` (rule R187 (h)). -/
theorem Unpacker.beat_trailing (u : Unpacker) (k : Bool) (b : Byte) (h9 : 9 ≤ u.cnt.toNat) (hc : u.cnt.toNat = 9 + u.len.toNat) : u.beat k false b = { u with trail := u.trail || k } := by
  cases k
  · simp [Unpacker.beat]
  · simp only [Unpacker.beat, if_true, if_false, Bool.false_eq_true, Unpacker.takeByte, byteRole, Config.hdrLen]
    simp [show ¬ u.cnt.toNat = 0 by omega, show ¬ u.cnt.toNat ≤ 4 by omega, show ¬ u.cnt.toNat ≤ 6 by omega, show ¬ u.cnt.toNat ≤ 8 by omega, show ¬ u.cnt.toNat < 9 + u.len.toNat by omega]

/-- Every datagram ends in `DONE`. -/
theorem Unpacker.unpack_phase (d : List Byte) (u : Unpacker) : (u.unpack d).phase = .done := by
  induction d generalizing u with
  | nil => rfl
  | cons b d ih => cases d with
    | nil => rfl
    | cons c d => exact ih _

/-- A datagram is its beats (rule R118). -/
theorem Unpacker.unpack_fold (d : List Byte) (b : Byte) (u : Unpacker) : u.unpack (d ++ [b]) = ((d.map (fun x => (true, x))).foldl (fun p x => p.beat x.1 false x.2) u).beat true true b := by
  induction d generalizing u with
  | nil => rfl
  | cons c d ih => 
    cases d with
    | nil => rfl
    | cons e d => 
      have := ih (u.beat true false c)
      simpa [Unpacker.unpack] using this

end Sys2Proof.Machine
end

