-- ==== Sys2Proof/Laws/Exec.lean ====
section
/-!
SUPPORT. Laws/Exec.lean: sequences of operations and of stream beats, and the header rows as datagrams.
-/

namespace Sys2Proof.Machine

@[simp] theorem setPacker_setPacker (s : State) (p q : Packer) : (s.setPacker p).setPacker q = s.setPacker q := rfl

@[simp] theorem setPacker_self (s : State) : s.setPacker s.p = s := rfl

theorem execAll_append (is js : List Instr) (s : State) : execAll (is ++ js) s = match execAll is s with
   | .next t => execAll js t | .fault r => .fault r | .refused r => .refused r := by
  induction is generalizing s with
  | nil => rfl
  | cons i is ih => simp only [List.cons_append, execAll]; cases exec i s <;> simp [ih]

theorem delivered_append (a b : List (Bool × Byte)) : delivered (a ++ b) = delivered a ++ delivered b := by
  induction a with
  | nil => rfl
  | cons x a ih => obtain ⟨k, y⟩ := x; cases k <;> simp [delivered, ih]

/-- A payload beat that is not last leaves the phase alone. -/
theorem Packer.plBeat_phase (p : Packer) (k : Bool) (b : Byte) : (p.plBeat k false b).phase = p.phase := by
  cases k
  · rfl
  · simp only [Packer.plBeat, Packer.takeByte]; simp; split_ifs <;> rfl

theorem Packer.foldl_plBeat_phase (bs : List (Bool × Byte)) (p : Packer) : (bs.foldl (fun p x => p.plBeat x.1 false x.2) p).phase = p.phase := by
  induction bs generalizing p with
  | nil => rfl
  | cons x bs ih => simp [ih, Packer.plBeat_phase]

/-- Payload beats that are not last, in `LOAD`. -/
theorem execAll_plBeats (bs : List (Bool × Byte)) (s : State) (hp : s.p.phase = .load) :
    execAll (bs.map (fun x => .txPlBeat x.1 false x.2)) s = .next (s.setPacker (bs.foldl (fun p x => p.plBeat x.1 false x.2) s.p)) := by
  induction bs generalizing s with
  | nil => rfl
  | cons x bs ih =>
    simp only [List.map_cons, execAll, exec, execTxPlBeat, hp, if_true]
    rw [ih _ (by simp [Packer.plBeat_phase, hp])]; simp

/-- All the beats of a payload, in `LOAD`. -/
theorem execAll_payload (bs : List (Bool × Byte)) (f : Bool × Byte) (s : State) (hp : s.p.phase = .load) :
    execAll (txPayloadBeats bs f) s = .next (s.setPacker ((bs.foldl (fun p x => p.plBeat x.1 false x.2) s.p).plBeat f.1 true f.2)) := by
  unfold txPayloadBeats
  rw [execAll_append, execAll_plBeats bs s hp]
  simp [execAll, exec, execTxPlBeat, Packer.foldl_plBeat_phase, hp]

/-- A payload beat at a full packer (rule R157). -/
theorem Packer.plBeat_full (p : Packer) (k : Bool) (b : Byte) (h : p.len.toNat = 65535) : p.plBeat k false b = { p with ovf := p.ovf || k } := by
  cases k <;> simp [Packer.plBeat, Packer.takeByte, payloadFull, h]

theorem Unpacker.foldl_beat_phase (bs : List (Bool × Byte)) (p : Unpacker) : (bs.foldl (fun p x => p.beat x.1 false x.2) p).phase = p.phase := by
  induction bs generalizing p with
  | nil => rfl
  | cons x bs ih => simp [ih, Unpacker.beat_phase]

/-- Received beats that are not last, in `RECV`. -/
theorem execAll_rxBeats (bs : List (Bool × Byte)) (s : State) (hp : s.u.phase = .recv) :
    execAll (bs.map (fun x => .rxBeat x.1 false x.2)) s = .next (s.setUnpacker (bs.foldl (fun p x => p.beat x.1 false x.2) s.u)) := by
  induction bs generalizing s with
  | nil => rfl
  | cons x bs ih =>
    simp only [List.map_cons, execAll, exec, execRxBeat, hp, if_true]
    rw [ih _ (by simp [Unpacker.beat_phase, hp])]; simp

/-- All the beats of a datagram, in `RECV`. -/
theorem execAll_datagram (bs : List (Bool × Byte)) (f : Bool × Byte) (s : State) (hp : s.u.phase = .recv) :
    execAll (rxDatagramBeats bs f) s = .next (s.setUnpacker ((bs.foldl (fun p x => p.beat x.1 false x.2) s.u).beat f.1 true f.2)) := by
  unfold rxDatagramBeats
  rw [execAll_append, execAll_rxBeats bs s hp]
  simp [execAll, exec, execRxBeat, Unpacker.foldl_beat_phase, hp]

/-- A header row is the arrival of its datagram. -/
theorem exec_of_rowDatagram? (s : State) (i : Instr) (d : List Byte) (h : rowDatagram? s.typeCode i = some d) : exec i s = receive d s := by
  cases i <;> simp [rowDatagram?] at h <;> subst h <;> rfl

/-- Every byte of a string delivered in a beat of its own. -/
@[simp] theorem delivered_map_true (d : List Byte) : delivered (d.map (fun x => (true, x))) = d := by
  induction d with
  | nil => rfl
  | cons b d ih => simp [delivered, ih]

/-- Everything a step that goes on can be: waiting, a word that stands for no event, or one operation. -/
theorem step_cases (s t : State) (h : step s = .next t) :
    (takeOffer s s.offers = none ∧ t = s) ∨
    (∃ w left e, takeOffer s s.offers = some (w, left) ∧ decodeWord s.typeCode w = .error e ∧ t = s.setOffers left) ∨
    (∃ w left i, takeOffer s s.offers = some (w, left) ∧ decodeWord s.typeCode w = .ok i ∧
      exec i (s.setOffers left) = .next t) := by
  unfold step at h
  split at h
  · rename_i hn; cases h; exact .inl ⟨hn, rfl⟩
  · rename_i w left hs
    split at h
    · rename_i e he; cases h; exact .inr (.inl ⟨w, left, e, hs, he, rfl⟩)
    · rename_i i hi; exact .inr (.inr ⟨w, left, i, hs, hi, h⟩)

/-- A received string is its bytes one by one, the last of them judged. -/
theorem Unpacker.beat_last (u : Unpacker) (k : Bool) (b : Byte) : u.beat k true b = (u.beat k false b).finish := by
  unfold Unpacker.beat; cases k <;> simp

theorem Unpacker.AtStart.recv {u : Unpacker} (h : u.AtStart) : u.phase = .recv := by
  rw [Unpacker.AtStart] at h; rw [h]; rfl

end Sys2Proof.Machine
end

