-- ==== Sys2Proof/Laws/PerInstr.lean ====
section
/-!
SUPPORT. Laws/PerInstr.lean: the family of statements made constructor by constructor. `Kinds`: every row of the table
belongs to exactly one of the packer, the unpacker and the two together (rules R30, R119), and the rows that stand for
a datagram are the unpacker's.
-/

namespace Sys2Proof.Laws.Kinds

open Sys2Proof.Machine

/-- An operation is the packer's, the unpacker's or `RESET`, and never two of these; a datagram is the unpacker's. -/
def Statement (i : Instr) : Prop :=
  ((isPackerEvent i = true ∧ isUnpackerEvent i = false ∧ i ≠ .reset) ∨
    (isPackerEvent i = false ∧ isUnpackerEvent i = true ∧ i ≠ .reset) ∨
    (isPackerEvent i = false ∧ isUnpackerEvent i = false ∧ i = .reset)) ∧
  ∀ tc, (rowDatagram? tc i).isSome = true → isUnpackerEvent i = true

theorem hdrData (seq : SeqBits) (len ck : Half) (rest : List Byte) : Statement (.hdrData seq len ck rest) := by
  simp [Statement, isPackerEvent, isUnpackerEvent]
theorem hdrMetadata (seq : SeqBits) (len ck : Half) (rest : List Byte) : Statement (.hdrMetadata seq len ck rest) := by
  simp [Statement, isPackerEvent, isUnpackerEvent]
theorem hdrAck (seq : SeqBits) (len ck : Half) (rest : List Byte) : Statement (.hdrAck seq len ck rest) := by
  simp [Statement, isPackerEvent, isUnpackerEvent]
theorem hdrFin (seq : SeqBits) (len ck : Half) (rest : List Byte) : Statement (.hdrFin seq len ck rest) := by
  simp [Statement, isPackerEvent, isUnpackerEvent]
theorem hdrUnknown (t : Byte) (seq : SeqBits) (len ck : Half) (rest : List Byte) :
    Statement (.hdrUnknown t seq len ck rest) := by simp [Statement, isPackerEvent, isUnpackerEvent]
theorem txCmd (t : PacketType) (seq : SeqBits) : Statement (.txCmd t seq) := by
  simp [Statement, isPackerEvent, isUnpackerEvent, rowDatagram?]
theorem txPlBeat (keep last : Bool) (b : Byte) : Statement (.txPlBeat keep last b) := by
  simp [Statement, isPackerEvent, isUnpackerEvent, rowDatagram?]
theorem txOutBeat : Statement .txOutBeat := by simp [Statement, isPackerEvent, isUnpackerEvent, rowDatagram?]
theorem txErrAck : Statement .txErrAck := by simp [Statement, isPackerEvent, isUnpackerEvent, rowDatagram?]
theorem rxBeat (keep last : Bool) (b : Byte) : Statement (.rxBeat keep last b) := by
  simp [Statement, isPackerEvent, isUnpackerEvent]
theorem rxRead (a : BitVec 16) : Statement (.rxRead a) := by simp [Statement, isPackerEvent, isUnpackerEvent]
theorem rxRelease : Statement .rxRelease := by simp [Statement, isPackerEvent, isUnpackerEvent]
theorem reset : Statement .reset := by simp [Statement, isPackerEvent, isUnpackerEvent, rowDatagram?]

end Sys2Proof.Laws.Kinds
end

