-- ==== Sys2Proof/Tests/Slice0.lean ====
section
/-!
SUPPORT. Tests/Slice0.lean: the model's own tests. Expected values come from spec/95_test_vectors.md (named in each
docstring) or are written out by hand from the encodings of spec/30_encoding.md. The second half gives, for each
statement that has hypotheses, a concrete input that meets them.
-/

namespace Sys2Proof.Tests

open Sys2Proof.Machine

/-! ## Helpers -/

/-- The outcome is a next state of which `f` holds. -/
def nextIs (o : Host.Outcome State Fault Refusal) (f : State → Bool) : Bool :=
  match o with
  | .next t => f t
  | .fault _ => false
  | .refused _ => false

/-- The state after reset with another packer. -/
def withP (p : Packer) : State := State.reset.setPacker p

/-- The state after reset with another unpacker. -/
def withU (u : Unpacker) : State := State.reset.setUnpacker u

/-- Program P1 after `tx_cmd DATA 1` and the beats of `"Hi"`. -/
def loadHi : State :=
  withP { phase := .load, type := .data, seq := 1, len := 2, sum := 0x00B1, cnt := 0, ovf := false,
          txbuf := [(0, 0x48), (1, 0x69)] }

/-- Program P1 in `EMIT` with `P.CNT = c`. -/
def emitHi (c : Count) : State :=
  withP { phase := .emit, type := .data, seq := 1, len := 3, sum := 0x00D2, cnt := c, ovf := false,
          txbuf := [(0, 0x48), (1, 0x69), (2, 0x21)] }

/-- Vector V-P3 before the 65536th byte, no cell listed. -/
def loadFull : State := withP { Packer.cleared [] with phase := .load, len := 0xFFFF }

/-- Program P6 in `ERR`. -/
def errFull : State := withP { Packer.cleared [] with phase := .err, len := 0xFFFF, ovf := true }

/-- Vector V-D2 received up to `U.CNT = 11`: the two payload bytes `"Hi"` of three. -/
def recvHi : State :=
  withU { phase := .recv, cnt := 11, type := 0, seq := 1, len := 3, ckw := 0x00D2, sum := 0x00B1, trail := false,
          status := .ok, valid := false, rxbuf := [(0, 0x48), (1, 0x69)] }

/-- Vector V-D2 in `DONE`. -/
def doneHi : State :=
  withU { phase := .done, cnt := 12, type := 0, seq := 1, len := 3, ckw := 0x00D2, sum := 0x00D2, trail := false,
          status := .ok, valid := true, rxbuf := [(0, 0x48), (1, 0x69), (2, 0x21)] }

/-- Vector V-D14 in `DONE`: a type byte that is none of the codes. -/
def doneUnknown : State :=
  withU { phase := .done, cnt := 10, type := 0x7F, seq := 9, len := 1, ckw := 0x41, sum := 0x41, trail := false,
          status := .ok, valid := true, rxbuf := [(0, 0x41)] }

/-- `RECV` with the count at `c` and a declared length. -/
def recvAt (c : Count) (len : Half) : State := withU { Unpacker.cleared [] with cnt := c, len := len }

/-! ## Well-formedness -/

/-- A header whose type byte is a known code is no fallback row (rule R112 (a)). -/
theorem test_wellFormed_refuses_a_known_code :
    Instr.wellFormed TypeCode.standard (.hdrUnknown 0x03 9 1 0x0041 [0x41]) = false := by decide

theorem test_wellFormed_accepts_an_unknown_code :
    Instr.wellFormed TypeCode.standard (.hdrUnknown 0x04 9 1 0x0041 [0x41]) = true := by decide

/-! ## Decoding: one word of every constructor, written out from rules R101, R110, R111 -/

/-- Vector V-E5: type 00, seq 7, length 6, checksum 0260. -/
theorem test_decode_hdrData :
    decodeTableWord 72 0x000000000700060260 = some (.hdrData 7 6 0x0260 [0, 0, 0, 0, 0, 0]) := by decide

/-- Program P5: type 01, seq 0, length 0013, checksum 0309. -/
theorem test_decode_hdrMetadata :
    decodeWord TypeCode.standard (.rxDatagram 0x010000000000130309#72 []) = .ok (.hdrMetadata 0 0x13 0x0309 []) := by
  decide

/-- Vector V-E2: type 02, seq 5. -/
theorem test_decode_hdrAck : decodeTableWord 72 0x020000000500000000 = some (.hdrAck 5 0 0 []) := by decide

/-- Vector V-E3: type 03, seq -1. -/
theorem test_decode_hdrFin : decodeTableWord 72 0x03FFFFFFFF00000000 = some (.hdrFin 0xFFFFFFFF 0 0 []) := by decide

/-- Vector V-D14: type 7F, seq 9, length 1, checksum 0041. -/
theorem test_decode_hdrUnknown :
    decodeTableWord 72 0x7F0000000900010041 = some (.hdrUnknown 0x7F 9 1 0x0041 [0]) := by decide

/-- The class in bits 33..32, seq in bits 31..0: class 2 is ACK. -/
theorem test_decode_txCmd :
    decodeWord TypeCode.standard (.txCmd 0b1000000000000000000000000000000101#34) = .ok (.txCmd .ack 5) := by decide

/-- keep in bit 9, last in bit 8. -/
theorem test_decode_txPlBeat :
    decodeWord TypeCode.standard (.txPl 0b1001001000#10) = .ok (.txPlBeat true false 0x48) := by decide

theorem test_decode_rxBeat :
    decodeWord TypeCode.standard (.rxIn 0b0110011001#10) = .ok (.rxBeat false true 0x99) := by decide

theorem test_decode_rxRead : decodeWord TypeCode.standard (.rxRd 0x8001#16) = .ok (.rxRead 0x8001) := by decide

theorem test_decode_pulses :
    decodeWord TypeCode.standard (.txOut 1#1) = .ok .txOutBeat ∧
    decodeWord TypeCode.standard (.txErrAck 1#1) = .ok .txErrAck ∧
    decodeWord TypeCode.standard (.rxRelease 1#1) = .ok .rxRelease ∧
    decodeWord TypeCode.standard (.rst 1#1) = .ok .reset ∧
    decodeWord TypeCode.standard (.rst 0#1) = .error .signalLow := by decide

/-! ## The checksum and the function level -/

/-- The `ck_step` table of section 2.1. -/
theorem test_ckStep :
    ckStep 0 0 = 0 ∧ ckStep 177 33 = 210 ∧ ckStep 65534 0 = 65534 ∧ ckStep 65534 1 = 0 ∧ ckStep 65534 255 = 254 ∧
    ckStep 65280 255 = 0 ∧ ckStep 65280 254 = 65534 ∧ ckStep 65279 255 = 65534 := by decide

/-- Vectors V-S1, V-S3, V-S6, V-S8, V-S16. -/
theorem test_checksum16 :
    checksum16 [] = 0 ∧ checksum16 [0x80] = 0x80 ∧ checksum16 [0x48, 0x69, 0x21] = 0xD2 ∧
    checksum16 [0x4E, 0x65, 0x74, 0x56, 0x69, 0x7A] = 0x0260 ∧ checksum16 [0x42, 0x41] = 0x83 := by decide

/-- Vectors V-E1, V-E3, V-E6. -/
theorem test_pack :
    pack TypeCode.standard .data 1 [0x48, 0x69, 0x21] =
      [0x00, 0x00, 0x00, 0x00, 0x01, 0x00, 0x03, 0x00, 0xD2, 0x48, 0x69, 0x21] ∧
    pack TypeCode.standard .fin (-1) [] = [0x03, 0xFF, 0xFF, 0xFF, 0xFF, 0x00, 0x00, 0x00, 0x00] ∧
    pack TypeCode.standard .data (-2147483648) [] = [0x00, 0x80, 0x00, 0x00, 0x00, 0x00, 0x00, 0x00, 0x00] := by
  decide

/-- Vectors V-D8, V-D11, V-D13. -/
theorem test_decodeDatagram :
    decodeDatagram [0x02, 0x00, 0x00, 0x00, 0x05, 0x00, 0x00, 0x00] = .malformedShort ∧
    decodeDatagram [0x02, 0x00, 0x00, 0x00, 0x01, 0x00, 0x01, 0x00, 0x00] = .malformedLength ∧
    decodeDatagram [0x02, 0x00, 0x00, 0x00, 0x05, 0x00, 0x00, 0x00, 0x00, 0xFF] =
      .ok ⟨0x02, 5, 0, 0, [], true⟩ := by decide

/-! ## One step of each operation -/

/-- Program P1, first event. -/
theorem test_txCmd : nextIs (exec (.txCmd .data 1) State.reset) (fun t =>
    decide (t.p = { Packer.cleared [] with seq := 1, phase := .load })) = true := by decide

/-- Program P1, the last payload beat: the byte is stored and summed before the payload ends. -/
theorem test_txPlBeat_last : nextIs (exec (.txPlBeat true true 0x21) loadHi) (fun t => decide (t = emitHi 0)) = true := by
  decide

/-- Vector V-P3: the 65536th byte is discarded and `last` goes to `ERR`. -/
theorem test_txPlBeat_overflow :
    nextIs (exec (.txPlBeat true true 0x01) loadFull) (fun t => decide (t = errFull)) = true := by decide

/-- Program P1: the low checksum byte at `P.CNT = 8`. -/
theorem test_txOutBeat_header : nextIs (exec .txOutBeat (emitHi 8)) (fun t =>
    decide (t.sink = [⟨false, 0xD2⟩]) && decide (t.p.cnt = 9)) = true := by decide

/-- Program P1: the last byte; `P.CNT` stays 11. -/
theorem test_txOutBeat_last : nextIs (exec .txOutBeat (emitHi 11)) (fun t =>
    decide (t.sink = [⟨true, 0x21⟩]) && decide (t.p.cnt = 11) && decide (t.p.phase = .idle)) = true := by decide

/-- Program P6. -/
theorem test_txErrAck : nextIs (exec .txErrAck errFull) (fun t =>
    decide (t.p = { Packer.cleared [] with len := 0xFFFF })) = true := by decide

/-- Vector V-P6: the pulses outside their phases. -/
theorem test_pulses_ignored :
    nextIs (exec .txErrAck State.reset) (fun t => decide (t = State.reset)) = true ∧
    nextIs (exec .rxRelease State.reset) (fun t => decide (t = State.reset)) = true := by decide

/-- Vector V-D2, the last beat. -/
theorem test_rxBeat_last : nextIs (exec (.rxBeat true true 0x21) recvHi) (fun t => decide (t = doneHi)) = true := by
  decide

/-- Vector V-D9: the datagram ends one payload byte early; `U.SUM` is 00B1. -/
theorem test_rxBeat_lengthError : nextIs (exec (.rxBeat false true 0x99) recvHi) (fun t =>
    decide (t.u.status = .malformedLength) && decide (t.u.valid = false) && decide (t.u.sum = 0xB1)) = true := by
  decide

/-- Vector V-D12: reads of the payload. -/
theorem test_rxRead : nextIs (exec (.rxRead 2) doneHi) (fun t =>
    decide (t.reads = [⟨2, 0x21⟩]) && decide (t.u = doneHi.u)) = true := by decide

/-- Vector V-D12: `rx_rd 3 -> ?` answers, with a byte nothing is said about. -/
theorem test_rxRead_outside : nextIs (exec (.rxRead 3) doneHi) (fun t =>
    decide (t.reads.length = 1) && decide (t.draws = 1)) = true := by decide

/-- Program P2: every unpacker register 0, the cells kept. -/
theorem test_rxRelease : nextIs (exec .rxRelease doneHi) (fun t =>
    decide (t.u = Unpacker.cleared [(0, 0x48), (1, 0x69), (2, 0x21)])) = true := by decide

/-- Rules R49, R52: reset in mid-packet. -/
theorem test_reset : nextIs (exec .reset loadHi) (fun t =>
    decide (t.p = Packer.cleared [(0, 0x48), (1, 0x69)])) = true := by decide

/-- Vector V-D2 as a whole datagram. -/
theorem test_hdrData :
    nextIs (exec (.hdrData 1 3 0x00D2 [0x48, 0x69, 0x21]) State.reset) (fun t => decide (t = doneHi)) = true := by decide

/-- Vector V-C1: one payload byte changed. -/
theorem test_hdrData_corrupted :
    nextIs (exec (.hdrData 1 3 0x00D2 [0x48, 0x68, 0x21]) State.reset) (fun t =>
      decide (t.u.status = .ok) && decide (t.u.valid = false) && decide (t.u.sum = 0xD1)) = true := by decide

/-- A METADATA datagram with two payload bytes, checksum 0083 (vector V-E10's payload). -/
theorem test_hdrMetadata :
    nextIs (exec (.hdrMetadata 0 2 0x0083 [0x41, 0x42]) State.reset) (fun t =>
      decide (t.u.type = 0x01) && decide (t.u.valid = true) && decide (t.u.cnt = 11)) = true := by decide

/-- Vector V-D13: one trailing byte. -/
theorem test_hdrAck_trailing :
    nextIs (exec (.hdrAck 5 0 0 [0xFF]) State.reset) (fun t =>
      decide (t.u.status = .ok) && decide (t.u.valid = true) && decide (t.u.trail = true) && decide (t.u.cnt = 9)) = true := by
  decide

/-- Vector V-D11: nine bytes that declare one. -/
theorem test_hdrAck_lengthError :
    nextIs (exec (.hdrAck 1 1 0 []) State.reset) (fun t =>
      decide (t.u.status = .malformedLength) && decide (t.u.valid = false)) = true := by decide

/-- Program P3: the FIN of the loopback. -/
theorem test_hdrFin :
    nextIs (exec (.hdrFin 0xFFFFFFFF 0 0 []) State.reset) (fun t =>
      decide (t.u.type = 0x03) && decide (t.u.seq = 0xFFFFFFFF) && decide (t.u.valid = true)) = true := by decide

/-- Vector V-D14. -/
theorem test_hdrUnknown :
    nextIs (exec (.hdrUnknown 0x7F 9 1 0x0041 [0x41]) State.reset) (fun t => decide (t = doneUnknown)) = true := by decide

/-- A table word offered to the machine right after reset runs at the next step. -/
theorem test_withFetchWord : nextIs (step (State.reset.withFetchWord 40 0x0300000005)) (fun t =>
    decide (t.p.type = .fin) && decide (t.p.seq = 5) && decide (t.p.phase = .load)) = true := by decide

/-! ## Inputs that meet the hypotheses of the statements -/

theorem witness_EncodedOperationDecodesBack :
    TypeCode.standard.Injective ∧ Instr.wellFormed TypeCode.standard (.hdrUnknown 0x04 9 1 0x41 [0x41]) = true ∧
    Instr.wellFormed TypeCode.standard (.rxRead 0xFFFF) = true := by decide

theorem witness_DecodedWordEncodesBack :
    decodeWord TypeCode.standard (.rxIn 0b1111111111#10) = .ok (.rxBeat true true 0xFF) := by decide

theorem witness_HeaderRowIsSelectedByTheTypeByte :
    TypeCode.standard.Injective ∧ (0x00 : Byte) = TypeCode.standard.code .data ∧
    (0x01 : Byte) = TypeCode.standard.code .metadata ∧ (0x02 : Byte) = TypeCode.standard.code .ack ∧
    (0x03 : Byte) = TypeCode.standard.code .fin ∧ (∀ k, (0x04 : Byte) ≠ TypeCode.standard.code k) :=
  ⟨by decide, by decide, by decide, by decide, by decide, fun k => by cases k <;> decide⟩

/-- Each of the three cases of a step. -/
theorem witness_StepRunsTheDecodedOperation :
    (let s := State.reset.setOffers [.txPl 0x348, .txCmd 5]
     takeOffer s s.offers = some (.txCmd 5, [.txPl 0x348]) ∧ decodeWord s.typeCode (.txCmd 5) = .ok (.txCmd .data 5)) ∧
    (let s := State.reset.setOffers [.rst 0]
     takeOffer s s.offers = some (.rst 0, []) ∧ decodeWord s.typeCode (.rst 0) = .error .signalLow) ∧
    (let s := State.reset.setOffers [.txPl 0x348]
     takeOffer s s.offers = none) := by decide

theorem witness_FirstOfferThatMovesIsTaken :
    (∀ v ∈ [PortWord.txPl 0x348, .txOut 1], offerMoves State.reset v = false) ∧
    offerMoves State.reset (.rxIn 0x300) = true := by decide

theorem witness_OffersMoveWhenTheirEventIsEnabled :
    loadHi.typeCode.Injective ∧ Instr.wellFormed loadHi.typeCode (.txPlBeat true false 1) = true ∧
    eventEnabled loadHi (.txPlBeat true false 1) = true ∧ eventEnabled loadHi .txOutBeat = false := by decide

theorem witness_TableWordRunsAtTheNextStep :
    State.reset.typeCode = TypeCode.standard ∧
    (decodeTableWord 34 0x300000005 = some (.txCmd .fin 5) ∧ eventEnabled State.reset (.txCmd .fin 5) = true) ∧
    (decodeTableWord 9 0 = some .txOutBeat ∧ eventEnabled State.reset .txOutBeat = false) := by decide

theorem witness_ResetOfferedFirstGoesFirst :
    (loadHi.setOffers [.rst 1#1, .txPl 0x321]).offers = .rst 1#1 :: [.txPl 0x321] := by decide

theorem witness_OutputsAfterReset : ∃ t, exec .reset (emitHi 3) = .next t := ⟨_, rfl⟩

/-- A known type, an unknown one, and the default codes. -/
theorem witness_TypeOutputsClassifyTheTypeByte :
    (∃ r, rxResult? doneHi = some r ∧ r.typeKnown = true ∧ doneHi.u.type = doneHi.typeCode.code .data) ∧
    (∃ r, rxResult? doneUnknown = some r ∧ r.typeKnown = false) ∧
    doneHi.typeCode.Injective ∧ doneHi.typeCode = TypeCode.standard :=
  ⟨⟨_, rfl, by decide, by decide⟩, ⟨_, rfl, by decide⟩, by decide, by decide⟩

theorem witness_TxCmdStartsAPacket : State.reset.p.phase = .idle := by decide

/-- A byte stored at the last free index, and a byte past it. -/
theorem witness_TxPlBeatStoresAndEndsThePayload :
    (withP { loadFull.p with len := 0xFFFE }).p.phase = .load ∧
    (withP { loadFull.p with len := 0xFFFE }).p.len.toNat = 65534 ∧
    loadFull.p.phase = .load ∧ loadFull.p.len.toNat = 65535 := by decide

theorem witness_OverflowingPayloadIsRefused :
    loadFull.p.phase = .load ∧ loadFull.p.len.toNat = 65535 ∧ delivered ([(false, 7)] ++ [(true, 1)]) ≠ [] := by decide

theorem witness_TxErrAckReturnsToIdle :
    errFull.p.phase = .err ∧ nextIs (exec (.txPlBeat true true 1) errFull) (fun t => decide (t = errFull)) = true ∧
    nextIs (exec .txErrAck errFull) (fun _ => true) = true := by decide

/-- The last header byte, the first payload byte and the last byte. -/
theorem witness_TxOutBeatEmitsTheNextByte :
    ((emitHi 8).p.phase = .emit ∧ (emitHi 8).p.cnt.toNat ≤ 8 + (emitHi 8).p.len.toNat) ∧
    ((emitHi 9).p.phase = .emit ∧ (emitHi 9).p.cnt.toNat < 8 + (emitHi 9).p.len.toNat) ∧
    ((emitHi 11).p.phase = .emit ∧ (emitHi 11).p.cnt.toNat = 8 + (emitHi 11).p.len.toNat) := by decide

theorem witness_TxOutBeatPastTheBufferFaults :
    (emitHi 65544).p.phase = .emit ∧ 65544 ≤ (emitHi 65544).p.cnt.toNat := by decide

/-- One transition of every kind. -/
theorem witness_PackerPhaseTransitions :
    nextIs (exec (.txCmd .ack 5) State.reset) (fun t => decide (t.p.phase = .load)) = true ∧
    nextIs (exec (.txPlBeat true true 0x21) loadHi) (fun t => decide (t.p.phase = .emit)) = true ∧
    nextIs (exec (.txPlBeat true true 0x21) loadFull) (fun t => decide (t.p.phase = .err)) = true ∧
    nextIs (exec .txOutBeat (emitHi 11)) (fun t => decide (t.p.phase = .idle)) = true ∧
    nextIs (exec .txErrAck errFull) (fun t => decide (t.p.phase = .idle)) = true ∧
    nextIs (exec .reset errFull) (fun t => decide (t.p.phase = .idle)) = true ∧
    nextIs (exec .txOutBeat loadHi) (fun t => decide (t.p.phase = .load)) = true := by decide

theorem witness_EventsThatAreNotEnabledDoNotOccur :
    eventEnabled loadHi .txOutBeat = false ∧ eventEnabled doneHi (.rxBeat true true 0) = false ∧
    doneHi.u.phase = .done ∧
    isPackerEvent (.txPlBeat true true 1) = true ∧ isPackerEvent (.txPlBeat false true 2) = true ∧
    eventEnabled loadHi (.txPlBeat true true 1) = true ∧ eventEnabled loadHi (.txPlBeat false true 2) = true := by decide

/-- The first and last index of each field, the first and last payload index, and the first trailing index. -/
theorem witness_RxBeatRoutesTheByteAndJudges :
    ([0, 1, 4, 5, 6, 7, 8, 9, 11, 12].map (fun c => (recvAt c 3).u.phase)) = List.replicate 10 .recv ∧
    [0, 1, 4, 5, 6, 7, 8, 9, 11, 12].map (fun c => byteRole c 3) =
      [.type, .seq, .seq, .length, .length, .cksum, .cksum, .payload 0, .payload 2, .trailing] := by decide

theorem witness_TrailingBytesOnlySetTheFlag :
    (recvAt 12 3).u.phase = .recv ∧ 9 ≤ (recvAt 12 3).u.cnt.toNat ∧
    (recvAt 12 3).u.cnt.toNat = 9 + (recvAt 12 3).u.len.toNat ∧ delivered [(true, 0xAA), (false, 0), (true, 0xBB)] ≠ [] := by
  decide

/-- The last index inside the window, and the first outside it. -/
theorem witness_RxReadAnswersWithoutChangingTheBlock :
    (doneHi.u.phase = .done ∧ doneHi.u.status = .ok ∧ (2 : BitVec 16).toNat < doneHi.u.len.toNat) ∧
    ¬ (doneHi.u.phase = .done ∧ doneHi.u.status = .ok ∧ (3 : BitVec 16).toNat < doneHi.u.len.toNat) := by decide

theorem witness_RxReleaseClearsTheUnpacker :
    doneHi.u.phase = .done ∧ nextIs (exec .rxRelease doneHi) (fun _ => true) = true ∧
    nextIs (exec .reset doneHi) (fun _ => true) = true := by decide

/-- One transition of every kind. -/
theorem witness_UnpackerPhaseTransitions :
    nextIs (exec (.rxBeat true false 1) State.reset) (fun t => decide (t.u.phase = .recv)) = true ∧
    nextIs (exec (.rxBeat false true 1) State.reset) (fun t => decide (t.u.phase = .done)) = true ∧
    nextIs (exec (.hdrAck 5 0 0 []) State.reset) (fun t => decide (t.u.phase = .done)) = true ∧
    nextIs (exec .rxRelease doneHi) (fun t => decide (t.u.phase = .recv)) = true ∧
    nextIs (exec .reset doneHi) (fun t => decide (t.u.phase = .recv)) = true ∧
    nextIs (exec (.rxBeat true true 1) doneHi) (fun t => decide (t.u.phase = .done)) = true := by decide

/-- A verdict written, and a verdict cleared. -/
theorem witness_VerdictIsGivenAtTheLastBeatOnly :
    nextIs (exec (.rxBeat false true 0) State.reset) (fun t => decide (t.u.status ≠ State.reset.u.status)) = true ∧
    nextIs (exec .rxRelease doneHi) (fun t => decide (t.u.valid ≠ doneHi.u.valid)) = true := by decide

theorem witness_HeaderRowIsItsBeats :
    rowDatagram? State.reset.typeCode (.hdrUnknown 0x7F 9 1 0x41 [0x41]) =
      some ([0x7F, 0, 0, 0, 9, 0, 1, 0, 0x41] ++ [0x41]) ∧ State.reset.u.phase = .recv := by decide

theorem witness_HeaderRowsCompleteAsDecoded :
    rowDatagram? State.reset.typeCode (.hdrFin 0xFFFFFFFF 0 0 []) = some [0x03, 0xFF, 0xFF, 0xFF, 0xFF, 0, 0, 0, 0] ∧
    State.reset.u.AtStart := ⟨by decide, rfl⟩

/-- Index 3 is past the payload, index 1 below what had been consumed. -/
theorem witness_HeaderRowFrame :
    (∃ t, rowDatagram? State.reset.typeCode (.hdrData 1 3 0xD2 [0x48, 0x69, 0x21]) =
        some [0, 0, 0, 0, 1, 0, 3, 0, 0xD2, 0x48, 0x69, 0x21] ∧
      exec (.hdrData 1 3 0xD2 [0x48, 0x69, 0x21]) State.reset = .next t ∧ t.u.cnt.toNat ≤ 3 + 9) ∧
    1 + 9 < recvHi.u.cnt.toNat := ⟨⟨_, by decide, rfl, by decide⟩, by decide⟩

theorem witness_EventsChangeTheirOwnAgentOnly :
    (isPackerEvent (.txPlBeat true false 1) = true ∧ nextIs (exec (.txPlBeat true false 1) loadHi) (fun _ => true) = true) ∧
    (isUnpackerEvent (.rxRead 0) = true ∧ nextIs (exec (.rxRead 0) doneHi) (fun _ => true) = true) := by decide

/-- Each of the four clauses. -/
theorem witness_BuffersAreWrittenByTheirStreamsOnly :
    (nextIs (exec (.txCmd .data 1) State.reset) (fun _ => true) = true) ∧
    ((emitHi 0).p.phase ≠ .load ∧ nextIs (exec .txOutBeat (emitHi 0)) (fun _ => true) = true) ∧
    (rowDatagram? doneHi.typeCode .rxRelease = none ∧ nextIs (exec .rxRelease doneHi) (fun _ => true) = true) ∧
    (doneHi.u.phase = .done ∧ nextIs (exec (.rxBeat true true 1) doneHi) (fun _ => true) = true) := by decide

theorem witness_InterleavingDoesNotMatter :
    ∃ a, (∀ i ∈ [Instr.txCmd .data 2, .rxBeat true false 2, .txPlBeat true false 0xFF],
        isPackerEvent i = true ∨ isUnpackerEvent i = true) ∧
      execAll ([Instr.txCmd .data 2, .rxBeat true false 2, .txPlBeat true false 0xFF].filter isPackerEvent) State.reset =
        .next a := ⟨_, by decide, rfl⟩

theorem witness_CkStepAddsModulo : (65534 : Half).toNat ≤ 65534 ∧ (0 : Half).toNat ≤ 65534 := by decide

theorem witness_ChecksumIsTheReducedSum : (([0x00] : List Byte).map BitVec.toNat).sum % 65535 = 0 := by decide

theorem witness_ChecksumLaws : [0x41, 0x42].Perm [(0x42 : Byte), 0x41] ∧ (0x00 : Byte) ≠ 0xFF := by decide

/-- The least and the greatest `seq`. -/
theorem witness_DecodeOfEncodeIsThePacket :
    TypeCode.standard.Injective ∧
    Packet.WellFormed { type := .data, seq := -2147483648, payloadLength := 1, checksum := 0x1234, payload := [0x41] } ∧
    Packet.WellFormed { type := .fin, seq := 2147483647, payloadLength := 0, checksum := 0, payload := [] } := by decide

/-- Eight bytes, nine bytes, and a declared length one above and equal to the bytes that follow. -/
theorem witness_DecodeOfAnyDatagram :
    ([2, 0, 0, 0, 5, 0, 0, 0] : List Byte).length < 9 ∧ 9 ≤ ([2, 0, 0, 0, 5, 0, 0, 0, 0] : List Byte).length ∧
    ([0x48] : List Byte).length < (2 : Half).toNat ∧ (1 : Half).toNat ≤ ([0x48] : List Byte).length := by decide

theorem witness_ShortIsJudgedBeforeLength : ([2, 0, 0, 0, 5, 0, 0, 0, 0] : List Byte).length = 9 := by decide

theorem witness_TrailingBytesAreNotPartOfThePacket :
    decodeDatagram [2, 0, 0, 0, 5, 0, 0, 0, 0] = .ok ⟨2, 5, 0, 0, [], false⟩ := by decide

/-- The first and the last payload byte, and a changed checksum field. -/
theorem witness_SingleCorruptionIsDetected :
    let d : List Byte := [0, 0, 0, 0, 1, 0, 3, 0, 0xD2, 0x48, 0x69, 0x21]
    let pkt : DecodedPacket := ⟨0, 1, 3, 0xD2, [0x48, 0x69, 0x21], false⟩
    decodeDatagram d = .ok pkt ∧ isValid pkt = true ∧
    (9 < 9 + pkt.payloadLength.toNat ∧ (0xFF : Byte) ≠ byteAt d 9) ∧
    (11 < 9 + pkt.payloadLength.toNat ∧ (0x20 : Byte) ≠ byteAt d 11) ∧
    be16 0 0xD3 ≠ be16 (byteAt d 7) (byteAt d 8) := by decide

/-- Vector V-D15. -/
theorem witness_AllOnesChecksumIsNeverValid_decoded :
    decodeDatagram [2, 0, 0, 0, 5, 0, 0, 0xFF, 0xFF] = .ok ⟨2, 5, 0, 0xFFFF, [], false⟩ := by decide

theorem witness_TypeAndSeqAreNotProtected :
    decodeDatagram [2, 0, 0, 0, 1, 0, 0, 0, 0] = .ok ⟨2, 1, 0, 0, [], false⟩ := by decide

/-- `n + 1` bytes in beats of their own, the last of them marked. -/
theorem delivered_ones_length (n : Nat) :
    (delivered ((List.replicate n (0x01 : Byte)).map (fun x => (true, x)) ++ [(true, 0x01)])).length = n + 1 := by
  simp only [delivered_append, delivered_map_true]; simp [delivered]

/-- An empty payload, exactly 65535 bytes, and one byte too many. -/
theorem witness_PackerRealisesPack :
    State.reset.p.phase = .idle ∧ (delivered ([] ++ [(false, (0x99 : Byte))])).length ≤ 65535 ∧
    (delivered ((List.replicate 65534 (0x01 : Byte)).map (fun x => (true, x)) ++ [(true, 0x01)])).length ≤ 65535 ∧
    65535 < (delivered ((List.replicate 65535 (0x01 : Byte)).map (fun x => (true, x)) ++ [(true, 0x01)])).length :=
  ⟨by decide, by decide, by rw [delivered_ones_length], by rw [delivered_ones_length]; omega⟩

/-- Two bytes, and exactly 65535. -/
theorem witness_EmittedDatagramIsValid :
    State.reset.p.phase = .idle ∧ (delivered ([(true, 0x48), (false, 0)] ++ [(true, (0x69 : Byte))])).length ≤ 65535 ∧
    (delivered ((List.replicate 65534 (0x01 : Byte)).map (fun x => (true, x)) ++ [(true, 0x01)])).length ≤ 65535 :=
  ⟨by decide, by decide, by rw [delivered_ones_length]⟩

/-- A datagram that decodes, and its last payload index. -/
theorem witness_UnpackerRealisesDecode :
    State.reset.u.AtStart ∧
    decodeDatagram (delivered (([0, 0, 0, 0, 1, 0, 2, 0, 0x83, 0x41].map (fun x => (true, x))) ++ [(true, 0x42)])) =
      .ok ⟨0, 1, 2, 0x83, [0x41, 0x42], false⟩ ∧ (1 : BitVec 16).toNat < (2 : Half).toNat := ⟨rfl, by decide, by decide⟩

/-- Vectors V-D8 (eight bytes), V-D11 (nine bytes that declare one), V-K5 (a wrong checksum), V-K1 (a good ACK) and V-D14
(an unknown type), received from the start. -/
theorem witness_ConditionsFollowFromTheDatagram :
    State.reset.u.AtStart ∧
    nextIs (execAll (rxDatagramBeats ([2, 0, 0, 0, 5, 0, 0].map (fun x => (true, x))) (true, 0)) State.reset) (fun t =>
      decide (datagramCondition? t = some .malformedShort) && decide (typeCondition? t = none)) = true ∧
    nextIs (execAll (rxDatagramBeats ([2, 0, 0, 0, 1, 0, 1, 0].map (fun x => (true, x))) (true, 0)) State.reset) (fun t =>
      decide (datagramCondition? t = some .malformedLength)) = true ∧
    nextIs (execAll (rxDatagramBeats ([2, 0, 0, 0, 1, 0, 0, 1].map (fun x => (true, x))) (true, 0)) State.reset) (fun t =>
      decide (datagramCondition? t = some .corrupted) && decide (typeCondition? t = none)) = true ∧
    nextIs (execAll (rxDatagramBeats ([2, 0, 0, 0, 1, 0, 0, 0].map (fun x => (true, x))) (true, 0)) State.reset) (fun t =>
      decide (datagramCondition? t = none) && decide (typeCondition? t = none)) = true ∧
    nextIs (execAll (rxDatagramBeats ([0x7F, 0, 0, 0, 9, 0, 1, 0, 0x41].map (fun x => (true, x))) (true, 0x41)) State.reset)
      (fun t => decide (datagramCondition? t = none) && decide (typeCondition? t = some .unknownType)) = true :=
  ⟨rfl, by decide, by decide, by decide, by decide, by decide⟩

/-- The two cuts of a datagram, one of them after an earlier datagram (program P7); a cell that it writes. -/
theorem witness_UnpackerResultDependsOnTheDatagramOnly :
    State.reset.u.AtStart ∧ (withU (Unpacker.cleared [(0, 0x4E), (3, 0x56)])).u.AtStart ∧
    delivered ([(true, 2), (false, 9)] ++ [(true, (0xFF : Byte))]) = delivered ([(true, 2), (true, 0xFF)] ++ [(false, 0x99)]) ∧
    0 + 9 < (doneHi.u.cnt).toNat :=
  ⟨rfl, rfl, by decide, by decide⟩

theorem witness_PackerOutputDependsOnThePacketOnly :
    State.reset.p.phase = .idle ∧ (withP { errFull.p with phase := .idle }).p.phase = .idle ∧
    State.reset.typeCode = (withP { errFull.p with phase := .idle }).typeCode ∧
    delivered ([(true, 0x48), (false, 0)] ++ [(true, (0x69 : Byte))]) = delivered ([(true, 0x48), (true, 0x69)] ++ [(false, 7)]) := by
  decide

theorem witness_LoopbackDeliversThePacket :
    State.reset.p.phase = .idle ∧ State.reset.u.AtStart ∧ State.reset.typeCode.Injective ∧
    (delivered ([(true, 0x48)] ++ [(true, (0x69 : Byte))])).length ≤ 65535 ∧ (1 : BitVec 16).toNat < 2 :=
  ⟨by decide, rfl, by decide, by decide, by decide⟩

/-- The invariants in `EMIT`, not at reset. -/
theorem inv_emitHi : Inv (emitHi 9) :=
  ⟨by decide, by decide, by decide, by decide, by decide, by decide, by decide, by decide, by decide, by decide, by decide,
    by decide⟩

theorem written_emitHi : Written (emitHi 9) :=
  ⟨fun _ j hj => by
    have : j < 3 := hj
    interval_cases j <;> rfl, fun j hj => absurd hj (by simp [emitHi, withP, State.reset])⟩

theorem inv_emitHi_offers : Inv ((emitHi 9).setOffers [.txOut 1]) :=
  ⟨inv_emitHi.1, inv_emitHi.2, inv_emitHi.3, inv_emitHi.4, inv_emitHi.5, inv_emitHi.6, inv_emitHi.7, inv_emitHi.8,
    inv_emitHi.9, inv_emitHi.10, inv_emitHi.11, inv_emitHi.12⟩

/-- A step that emits from `EMIT`. -/
theorem witness_StepKeepsTheStateInvariants :
    ∃ t, Inv ((emitHi 9).setOffers [.txOut 1]) ∧ step ((emitHi 9).setOffers [.txOut 1]) = .next t :=
  ⟨_, inv_emitHi_offers, rfl⟩

theorem witness_StepKeepsReadableCellsWritten :
    ∃ t, Inv ((emitHi 9).setOffers [.txOut 1]) ∧ Written ((emitHi 9).setOffers [.txOut 1]) ∧
      step ((emitHi 9).setOffers [.txOut 1]) = .next t :=
  ⟨_, inv_emitHi_offers, ⟨written_emitHi.1, written_emitHi.2⟩, rfl⟩

theorem witness_StepKeepsBuffersCanonical :
    ∃ t, BuffersCanonical (loadHi.setOffers [.txPl 0x321]) ∧ step (loadHi.setOffers [.txPl 0x321]) = .next t :=
  ⟨_, ⟨rfl, rfl⟩, rfl⟩

theorem witness_InvariantStatesAlwaysStep : Inv (emitHi 9) := inv_emitHi

theorem witness_TxOutBeatReadsAWrittenCell :
    Inv (emitHi 9) ∧ Written (emitHi 9) ∧ (emitHi 9).p.phase = .emit ∧ 9 ≤ (emitHi 9).p.cnt.toNat :=
  ⟨inv_emitHi, written_emitHi, by decide, by decide⟩

theorem inv_doneHi : Inv doneHi :=
  ⟨by decide, by decide, by decide, by decide, by decide, by decide, by decide, by decide, by decide, by decide, by decide,
    by decide⟩

theorem witness_AllOnesChecksumIsNeverValid_machine :
    (Inv doneHi ∧ doneHi.u.valid = true) ∧ (Inv (emitHi 9) ∧ (emitHi 9).p.phase = .emit) :=
  ⟨⟨inv_doneHi, by decide⟩, inv_emitHi, by decide⟩

/-- Each of the three clauses. -/
theorem witness_TransactionsEndQuiescent :
    (doneHi.p.phase = .idle ∧ doneHi.u.phase = .done ∧ nextIs (exec .rxRelease doneHi) (fun _ => true) = true) ∧
    ((errFull.u.phase = .recv ∧ errFull.u.cnt = 0 ∧ errFull.u.trail = false) ∧ errFull.p.phase = .err ∧
      nextIs (exec .txErrAck errFull) (fun _ => true) = true) ∧
    (((emitHi 11).u.phase = .recv ∧ (emitHi 11).u.cnt = 0 ∧ (emitHi 11).u.trail = false) ∧ (emitHi 11).p.phase = .emit ∧
      txOutLast (emitHi 11).p = true ∧ nextIs (exec .txOutBeat (emitHi 11)) (fun _ => true) = true) := by decide

end Sys2Proof.Tests
end

section
/-!
The equations of `step`, one for each thing that can stand first in line (rules R17, R44), and O6, which is the three
together.
-/

namespace Sys2Proof.Machine

/-- With no word that moves the block waits. -/
theorem step_of_takeOffer_none {s : State} (hs : takeOffer s s.offers = none) : step s = .next s := by
  simp [step, hs]

/-- A word that stands for no event is only taken off. -/
theorem step_of_decodeWord_error {s : State} {w : PortWord} {left : List PortWord} {e : DecodeError}
    (hs : takeOffer s s.offers = some (w, left)) (he : decodeWord s.typeCode w = .error e) :
    step s = .next (s.setOffers left) := by
  simp [step, hs, he]

/-- A word that decodes is executed on the state without it. -/
theorem step_of_decodeWord_ok {s : State} {w : PortWord} {left : List PortWord} {i : Instr}
    (hs : takeOffer s s.offers = some (w, left)) (hi : decodeWord s.typeCode w = .ok i) :
    step s = exec i (s.setOffers left) := by
  simp [step, hs, hi]

/-- Settles O6: the three equations of `step`. -/
theorem stepRunsTheDecodedOperation : Obligations.StepRunsTheDecodedOperation := by
  intro s
  exact ⟨fun _ _ _ hs hi => step_of_decodeWord_ok hs hi, fun _ _ _ hs he => step_of_decodeWord_error hs he,
    step_of_takeOffer_none⟩

end Sys2Proof.Machine
end

section
/-!
The shape that all operations but `TX_OUT_BEAT`, `RX_READ` and `RESET` share: in the phase that enables it an operation
updates the registers of its own agent, and in any other phase it answers the same state (rules R154, R185).
-/

namespace Sys2Proof.Machine

/-- Update the packer by `f` in phase `φ`; answer the same state in any other phase. -/
def State.onPacker (s : State) (φ : PackerPhase) (f : Packer → Packer) : Host.Outcome State Fault Refusal :=
  if s.p.phase = φ then .next (s.setPacker (f s.p)) else .next s

/-- Update the unpacker by `f` in phase `φ`; answer the same state in any other phase. -/
def State.onUnpacker (s : State) (φ : UnpackerPhase) (f : Unpacker → Unpacker) : Host.Outcome State Fault Refusal :=
  if s.u.phase = φ then .next (s.setUnpacker (f s.u)) else .next s

theorem exec_txCmd (k : PacketType) (q : SeqBits) (s : State) :
    exec (.txCmd k q) s = s.onPacker .idle (·.command k q) := rfl

theorem exec_txPlBeat (keep last : Bool) (b : Byte) (s : State) :
    exec (.txPlBeat keep last b) s = s.onPacker .load (·.plBeat keep last b) := rfl

theorem exec_txErrAck (s : State) : exec .txErrAck s = s.onPacker .err Packer.leaveErr := rfl

theorem exec_rxBeat (keep last : Bool) (b : Byte) (s : State) :
    exec (.rxBeat keep last b) s = s.onUnpacker .recv (·.beat keep last b) := rfl

theorem exec_rxRelease (s : State) : exec .rxRelease s = s.onUnpacker .done Unpacker.release := rfl

theorem exec_hdrData (q : SeqBits) (l c : Half) (r : List Byte) (s : State) :
    exec (.hdrData q l c r) s = s.onUnpacker .recv (·.unpack (encodeFields (s.typeCode.code .data) q l c r)) := rfl

theorem exec_hdrMetadata (q : SeqBits) (l c : Half) (r : List Byte) (s : State) :
    exec (.hdrMetadata q l c r) s =
      s.onUnpacker .recv (·.unpack (encodeFields (s.typeCode.code .metadata) q l c r)) := rfl

theorem exec_hdrAck (q : SeqBits) (l c : Half) (r : List Byte) (s : State) :
    exec (.hdrAck q l c r) s = s.onUnpacker .recv (·.unpack (encodeFields (s.typeCode.code .ack) q l c r)) := rfl

theorem exec_hdrFin (q : SeqBits) (l c : Half) (r : List Byte) (s : State) :
    exec (.hdrFin q l c r) s = s.onUnpacker .recv (·.unpack (encodeFields (s.typeCode.code .fin) q l c r)) := rfl

theorem exec_hdrUnknown (t : Byte) (q : SeqBits) (l c : Half) (r : List Byte) (s : State) :
    exec (.hdrUnknown t q l c r) s = s.onUnpacker .recv (·.unpack (encodeFields t q l c r)) := rfl

/-- `RESET` answers in every state, and clears both agents over the buffers they have. -/
theorem exec_reset (s : State) :
    exec .reset s = .next ((s.setPacker (Packer.cleared s.p.txbuf)).setUnpacker (Unpacker.cleared s.u.rxbuf)) := rfl

theorem onPacker_cases {s t : State} {φ : PackerPhase} {f : Packer → Packer} (h : s.onPacker φ f = .next t) :
    (s.p.phase = φ ∧ t = s.setPacker (f s.p)) ∨ (s.p.phase ≠ φ ∧ t = s) := by
  unfold State.onPacker at h
  split_ifs at h with hφ <;> cases h
  · exact .inl ⟨hφ, rfl⟩
  · exact .inr ⟨hφ, rfl⟩

theorem onUnpacker_cases {s t : State} {φ : UnpackerPhase} {f : Unpacker → Unpacker} (h : s.onUnpacker φ f = .next t) :
    (s.u.phase = φ ∧ t = s.setUnpacker (f s.u)) ∨ (s.u.phase ≠ φ ∧ t = s) := by
  unfold State.onUnpacker at h
  split_ifs at h with hφ <;> cases h
  · exact .inl ⟨hφ, rfl⟩
  · exact .inr ⟨hφ, rfl⟩

theorem onPacker_answers (s : State) (φ : PackerPhase) (f : Packer → Packer) : ∃ t, s.onPacker φ f = .next t := by
  unfold State.onPacker
  split_ifs <;> exact ⟨_, rfl⟩

theorem onUnpacker_answers (s : State) (φ : UnpackerPhase) (f : Unpacker → Unpacker) :
    ∃ t, s.onUnpacker φ f = .next t := by
  unfold State.onUnpacker
  split_ifs <;> exact ⟨_, rfl⟩

/-- An enabled output beat is accepted from the state before it (rules R160, R161). -/
theorem exec_txOutBeat_cases {s t : State} (h : exec .txOutBeat s = .next t) :
    (s.p.phase = .emit ∧ ∃ b, txOutData? s.typeCode s.p = some b ∧
      t = (s.emitBeat { last := txOutLast s.p, data := b }).setPacker s.p.advance) ∨ (s.p.phase ≠ .emit ∧ t = s) := by
  simp only [exec, execTxOutBeat] at h
  split_ifs at h with hemit
  · split at h <;> cases h
    exact .inl ⟨hemit, _, ‹_›, rfl⟩
  · cases h
    exact .inr ⟨hemit, rfl⟩

/-- A read only records what it returned, and outside the window draws a free byte (rules R77, R78, R195). -/
theorem exec_rxRead (a : BitVec 16) (s : State) :
    exec (.rxRead a) s = .next (if inReadWindow s.u a then s.reply a (readRxbuf s.u.rxbuf a.toNat)
      else (s.reply a (Config.freeByte s.draws)).drawn) := by
  simp only [exec, execRxRead]
  split_ifs <;> rfl

/-- Only an output beat can stop, and only at an index that is no cell (rule R72). -/
theorem exec_answers {i : Instr} {s : State} (h : i = .txOutBeat → s.p.phase = .emit → txLoadIndex s.p < 65535) :
    ∃ t, exec i s = .next t := by
  cases i with
  | hdrData | hdrMetadata | hdrAck | hdrFin | hdrUnknown =>
    simp only [exec_hdrData, exec_hdrMetadata, exec_hdrAck, exec_hdrFin, exec_hdrUnknown]
    exact onUnpacker_answers s .recv _
  | txCmd k q => rw [exec_txCmd]; exact onPacker_answers s .idle _
  | txPlBeat keep last b => rw [exec_txPlBeat]; exact onPacker_answers s .load _
  | txErrAck => rw [exec_txErrAck]; exact onPacker_answers s .err _
  | rxBeat keep last b => rw [exec_rxBeat]; exact onUnpacker_answers s .recv _
  | rxRelease => rw [exec_rxRelease]; exact onUnpacker_answers s .done _
  | rxRead a => exact ⟨_, exec_rxRead a s⟩
  | reset => exact ⟨_, exec_reset s⟩
  | txOutBeat =>
    simp only [exec, execTxOutBeat]
    split_ifs with hemit
    · have hcell := h rfl hemit
      unfold txOutData?
      split_ifs <;> exact ⟨_, rfl⟩
    · exact ⟨_, rfl⟩

end Sys2Proof.Machine
end

section
/-!
`RESET` and the outputs after it (rules R49, R50). O11 and O12 are settled here.
-/

namespace Sys2Proof.Machine

/-- Settles O11: `exec_reset` with the cleared registers written out, and the four codes that are 0. -/
theorem resetWritesEveryRegister : Obligations.ResetWritesEveryRegister := by
  intro s
  exact ⟨exec_reset s, rfl, rfl, rfl, rfl⟩

/-- Settles O12: the six outputs are those of `IDLE` and `RECV`. -/
theorem outputsAfterReset : Obligations.OutputsAfterReset := by
  intro s t ht
  rw [exec_reset] at ht
  cases ht
  simp [txCmdReady, txPlReady, txOutValid, txErr, rxInReady, rxResValid]

end Sys2Proof.Machine
end

section
/-!
Which offered word goes next (rules R44, R154, R185): the recursion of `takeOffer`, and `offerMoves` through the operation
a word decodes to. O7 and O8 are settled here.
-/

namespace Sys2Proof.Machine

@[simp] theorem takeOffer_nil (s : State) : takeOffer s [] = none := rfl

theorem takeOffer_cons_of_moves {s : State} {w : PortWord} (h : offerMoves s w = true) (rest : List PortWord) :
    takeOffer s (w :: rest) = some (w, rest) := by
  simp [takeOffer, h]

/-- A word that waits stays in front of what is left. -/
theorem takeOffer_cons_of_waits {s : State} {v : PortWord} (h : offerMoves s v = false) (rest : List PortWord) :
    takeOffer s (v :: rest) = (takeOffer s rest).map fun taken => (taken.1, v :: taken.2) := by
  cases hrest : takeOffer s rest <;> simp [takeOffer, h, hrest]

theorem takeOffer_eq_none_of_all_wait {s : State} {ws : List PortWord} (h : ∀ v ∈ ws, offerMoves s v = false) :
    takeOffer s ws = none := by
  induction ws with
  | nil => rfl
  | cons v ws ih =>
    rw [List.forall_mem_cons] at h
    rw [takeOffer_cons_of_waits h.1, ih h.2, Option.map_none]

theorem takeOffer_append_cons {s : State} {before : List PortWord} {w : PortWord}
    (hbefore : ∀ v ∈ before, offerMoves s v = false) (hw : offerMoves s w = true) (after : List PortWord) :
    takeOffer s (before ++ w :: after) = some (w, before ++ after) := by
  induction before with
  | nil => exact takeOffer_cons_of_moves hw after
  | cons v before ih =>
    rw [List.forall_mem_cons] at hbefore
    rw [List.cons_append, takeOffer_cons_of_waits hbefore.1, ih hbefore.2, Option.map_some, List.cons_append]

/-- Settles O7: by induction on the words that wait. -/
theorem firstOfferThatMovesIsTaken : Obligations.FirstOfferThatMovesIsTaken := by
  intro s before after w hbefore
  exact ⟨fun hw => takeOffer_append_cons hbefore hw after, takeOffer_eq_none_of_all_wait hbefore⟩

/-- The word of a well-formed operation decodes to that operation (rules R101, R103, R110, R111). -/
theorem decodeWord_encodeWord {tc : TypeCode} {i : Instr} (htc : tc.Injective) (hi : i.wellFormed tc = true) :
    decodeWord tc (encodeWord tc i) = .ok i := by
  cases i with
  | hdrData | hdrMetadata | hdrAck | hdrFin =>
    simp only [encodeWord, decodeWord, decodeHeader, headerWord_type, headerWord_seq, headerWord_len, headerWord_ck,
      typeOf?_code tc htc]
  | hdrUnknown t =>
    have hunknown : tc.typeOf? t = none := Option.isNone_iff_eq_none.mp hi
    simp only [encodeWord, decodeWord, decodeHeader, headerWord_type, headerWord_seq, headerWord_len, headerWord_ck,
      hunknown]
  | txCmd => simp only [encodeWord, decodeWord, commandWord_class, commandWord_seq, ofClass_classCode]
  | txPlBeat | rxBeat =>
    simp only [encodeWord, decodeWord, streamWord_keep, streamWord_last, streamWord_data, bitFlag_flagBit]
  | rxRead | txOutBeat | txErrAck | rxRelease | reset => rfl

/-- A word moves when its operation's event is enabled; the two pulses always move (rules R44, R154, R185). -/
theorem offerMoves_iff_of_decodeWord_ok {s : State} {w : PortWord} {i : Instr} (h : decodeWord s.typeCode w = .ok i) :
    offerMoves s w = true ↔ eventEnabled s i = true ∨ i = .txErrAck ∨ i = .rxRelease := by
  cases i <;> simp [offerMoves, h]

/-- Settles O8: the word of an operation decodes to it, and decides `offerMoves` by it. -/
theorem offersMoveWhenTheirEventIsEnabled : Obligations.OffersMoveWhenTheirEventIsEnabled := by
  intro s i htc hi
  exact offerMoves_iff_of_decodeWord_ok (decodeWord_encodeWord htc hi)

end Sys2Proof.Machine
end

section
/-!
The state invariants of rule R53 agent by agent, and that every step keeps them. `exec_keeps` says once what an operation
can do to each agent, as the updates a property of the agent has to survive; O54, O55 and O56 each give it their property.
O57 and O53 are settled
here too.
-/

namespace Sys2Proof.Machine

/-! ## What a property of one agent has to survive -/

/-- A property of the packer that each update of rules R153 to R161 and `RESET` keeps, in the phase that enables it. -/
structure Packer.Keeps (I : Packer → Prop) : Prop where
  command : ∀ p t q, p.phase = .idle → I p → I (p.command t q)
  takeByte : ∀ p b, p.phase = .load → I p → I (p.takeByte b)
  endPayload : ∀ p, p.phase = .load → I p → I p.endPayload
  advance : ∀ p, p.phase = .emit → I p → I p.advance
  leaveErr : ∀ p, p.phase = .err → I p → I p.leaveErr
  cleared : ∀ p, I p → I (Packer.cleared p.txbuf)

/-- A property of the unpacker that each update of rules R184 to R197 and `RESET` keeps; a release clears as a reset does. -/
structure Unpacker.Keeps (J : Unpacker → Prop) : Prop where
  takeByte : ∀ u b, u.phase = .recv → J u → J (u.takeByte b)
  finish : ∀ u, u.phase = .recv → J u → J u.finish
  cleared : ∀ u, J u → J (Unpacker.cleared u.rxbuf)

theorem Packer.takeByte_phase (p : Packer) (b : Byte) : (p.takeByte b).phase = p.phase := p.plBeat_phase true b

theorem Unpacker.takeByte_phase (u : Unpacker) (b : Byte) : (u.takeByte b).phase = u.phase := u.beat_phase true b

theorem Packer.Keeps.plBeat {I : Packer → Prop} (hI : Packer.Keeps I) {p : Packer} (hp : p.phase = .load) (h : I p)
    (keep last : Bool) (b : Byte) : I (p.plBeat keep last b) := by
  have hloadTaken : (p.takeByte b).phase = .load := (p.takeByte_phase b).trans hp
  have htaken : I (p.takeByte b) := hI.takeByte p b hp h
  cases keep <;> cases last
  · exact h
  · exact hI.endPayload p hp h
  · exact htaken
  · exact hI.endPayload _ hloadTaken htaken

theorem Unpacker.Keeps.beat {J : Unpacker → Prop} (hJ : Unpacker.Keeps J) {u : Unpacker} (hu : u.phase = .recv) (h : J u)
    (keep last : Bool) (b : Byte) : J (u.beat keep last b) := by
  have hrecvTaken : (u.takeByte b).phase = .recv := (u.takeByte_phase b).trans hu
  have htaken : J (u.takeByte b) := hJ.takeByte u b hu h
  cases keep <;> cases last
  · exact h
  · exact hJ.finish u hu h
  · exact htaken
  · exact hJ.finish _ hrecvTaken htaken

/-- A datagram is beats (rule R118), all but the last of them in `RECV`. -/
theorem Unpacker.Keeps.unpack {J : Unpacker → Prop} (hJ : Unpacker.Keeps J) (d : List Byte) {u : Unpacker}
    (hu : u.phase = .recv) (h : J u) : J (u.unpack d) := by
  induction u, d using Unpacker.unpack.induct with
  | case1 u => exact hJ.beat hu h false true 0
  | case2 u b => exact hJ.beat hu h true true b
  | case3 u b c rest ih => exact ih ((u.beat_phase true b).trans hu) (hJ.beat hu h true false b)

theorem onPacker_keeps {I : Packer → Prop} {J : Unpacker → Prop} {s t : State} {φ : PackerPhase} {f : Packer → Packer}
    (hf : ∀ p, p.phase = φ → I p → I (f p)) (h : I s.p ∧ J s.u) (ht : s.onPacker φ f = .next t) : I t.p ∧ J t.u := by
  obtain ⟨hφ, rfl⟩ | ⟨-, rfl⟩ := onPacker_cases ht
  · exact ⟨hf _ hφ h.1, h.2⟩
  · exact h

theorem onUnpacker_keeps {I : Packer → Prop} {J : Unpacker → Prop} {s t : State} {φ : UnpackerPhase}
    {f : Unpacker → Unpacker} (hf : ∀ u, u.phase = φ → J u → J (f u)) (h : I s.p ∧ J s.u)
    (ht : s.onUnpacker φ f = .next t) : I t.p ∧ J t.u := by
  obtain ⟨hφ, rfl⟩ | ⟨-, rfl⟩ := onUnpacker_cases ht
  · exact ⟨h.1, hf _ hφ h.2⟩
  · exact h

/-- What an operation can do, as what it keeps: it makes one of the listed updates of its own agent, in the phase that
enables it, or none. -/
theorem exec_keeps {I : Packer → Prop} {J : Unpacker → Prop} (hI : Packer.Keeps I) (hJ : Unpacker.Keeps J) {i : Instr}
    {s t : State} (h : I s.p ∧ J s.u) (ht : exec i s = .next t) : I t.p ∧ J t.u := by
  cases i with
  | hdrData | hdrMetadata | hdrAck | hdrFin | hdrUnknown =>
    simp only [exec_hdrData, exec_hdrMetadata, exec_hdrAck, exec_hdrFin, exec_hdrUnknown] at ht
    exact onUnpacker_keeps (fun _ hrecv hu => hJ.unpack _ hrecv hu) h ht
  | txCmd k q => exact onPacker_keeps (fun p hidle hp => hI.command p k q hidle hp) h (exec_txCmd k q s ▸ ht)
  | txPlBeat keep last b =>
    exact onPacker_keeps (fun _ hload hp => hI.plBeat hload hp keep last b) h (exec_txPlBeat keep last b s ▸ ht)
  | txErrAck => exact onPacker_keeps hI.leaveErr h (exec_txErrAck s ▸ ht)
  | txOutBeat =>
    obtain ⟨hemit, _, -, rfl⟩ | ⟨-, rfl⟩ := exec_txOutBeat_cases ht
    · exact ⟨hI.advance _ hemit h.1, h.2⟩
    · exact h
  | rxBeat keep last b =>
    exact onUnpacker_keeps (fun _ hrecv hu => hJ.beat hrecv hu keep last b) h (exec_rxBeat keep last b s ▸ ht)
  | rxRelease => exact onUnpacker_keeps (fun u _ hu => hJ.cleared u hu) h (exec_rxRelease s ▸ ht)
  | rxRead a =>
    rw [exec_rxRead] at ht
    cases ht
    split_ifs <;> exact h
  | reset =>
    cases ht
    exact ⟨hI.cleared _ h.1, hJ.cleared _ h.2⟩

/-- A step takes a word off the offers and then does what `exec` does. -/
theorem step_keeps {I : Packer → Prop} {J : Unpacker → Prop} (hI : Packer.Keeps I) (hJ : Unpacker.Keeps J) {s t : State}
    (h : I s.p ∧ J s.u) (ht : step s = .next t) : I t.p ∧ J t.u := by
  obtain ⟨-, rfl⟩ | ⟨_, left, _, -, -, rfl⟩ | ⟨_, left, i, -, -, hexec⟩ := step_cases s t ht
  · exact h
  · exact h
  · exact exec_keeps hI hJ (s := s.setOffers left) h hexec

/-! ## The registers after a byte -/

/-- A payload byte that fits (rule R156). -/
theorem Packer.takeByte_of_not_full {p : Packer} (h : p.len.toNat ≠ 65535) (b : Byte) :
    p.takeByte b =
      { p with txbuf := p.txbuf.write p.len.toNat b, len := p.len + 1, sum := ckStep p.sum b } := by
  simp [Packer.takeByte, payloadFull, txStoreIndex, h]

/-- A 65536th payload byte only sets `P.OVF` (rule R157). -/
theorem Packer.takeByte_of_full {p : Packer} (h : p.len.toNat = 65535) (b : Byte) :
    p.takeByte b = { p with ovf := true } := by
  simp [Packer.takeByte, payloadFull, h]

/-- The length of a packer that is not full counts one more byte without wrapping. -/
theorem len_succ_toNat {n : Half} (h : n.toNat ≠ 65535) : (n + 1).toNat = n.toNat + 1 := by
  have := n.isLt
  rw [BitVec.toNat_add_of_lt (by simp; omega)]
  rfl

@[simp] theorem checksum16_nil : checksum16 [] = 0 := rfl

/-- The accumulate step is the checksum of one more byte (rule R134). -/
theorem checksum16_append_singleton (d : List Byte) (b : Byte) : checksum16 (d ++ [b]) = ckStep (checksum16 d) b := by
  have hb := b.isLt
  apply BitVec.eq_of_toNat_eq
  rw [ckStep_toNat, checksum16_toNat, checksum16_toNat, byteSum_append, byteSum_cons, byteSum_nil]
  split_ifs <;> omega

/-! ## Rule R53 (a) to (i) -/

/-- The items of rule R53 that are about the packer. -/
structure Packer.Sound (p : Packer) : Prop where
  sumReduced : p.sum.toNat ≤ 65534
  emitCountBound : p.phase = .emit → p.cnt.toNat ≤ 8 + p.len.toNat
  overflowOnlyWhenFull : p.ovf = true → p.len.toNat = 65535
  sumIsChecksum : p.phase = .load ∨ p.phase = .emit → p.sum = checksum16 (txPayload p.txbuf p.len.toNat)

/-- The items of rule R53 that are about the unpacker. -/
structure Unpacker.Sound (u : Unpacker) : Prop where
  sumReduced : u.sum.toNat ≤ 65534
  countBound : u.cnt.toNat ≤ 65544
  countSaturates : 9 ≤ u.cnt.toNat → u.cnt.toNat ≤ 9 + u.len.toNat
  validMeansGood : u.valid = true → u.phase = .done ∧ u.status = .ok ∧ u.sum = u.ckw
  statusOnlyInDone : u.status ≠ .ok → u.phase = .done
  trailOnlyPastPayload : u.trail = true → 9 ≤ u.cnt.toNat ∧ u.cnt.toNat = 9 + u.len.toNat
  sumIsChecksum : 9 ≤ u.cnt.toNat → u.sum = checksum16 (rxPayload u.rxbuf (u.cnt.toNat - 9))
  sumZeroInHeader : u.cnt.toNat < 9 → u.sum = 0

/-- The two agents share no item of rule R53 (a) to (i) (rule R30). -/
theorem inv_iff (s : State) : Inv s ↔ s.p.Sound ∧ s.u.Sound := by
  constructor
  · intro ⟨hpsum, husum, hbound, hsat, hemit, hovf, hvalid, hstatus, htrail, hpck, huck, hzero⟩
    exact ⟨⟨hpsum, hemit, hovf, hpck⟩, ⟨husum, hbound, hsat, hvalid, hstatus, htrail, huck, hzero⟩⟩
  · intro ⟨⟨hpsum, hemit, hovf, hpck⟩, ⟨husum, hbound, hsat, hvalid, hstatus, htrail, huck, hzero⟩⟩
    exact ⟨hpsum, husum, hbound, hsat, hemit, hovf, hvalid, hstatus, htrail, hpck, huck, hzero⟩

theorem Packer.sound_cleared (m : Memory) : (Packer.cleared m).Sound :=
  ⟨by simp, by simp, by simp, by simp⟩

theorem Unpacker.sound_cleared (m : Memory) : (Unpacker.cleared m).Sound := by
  constructor <;> simp

theorem Packer.Sound.takeByte {p : Packer} (h : p.Sound) (hload : p.phase = .load) (b : Byte) :
    (p.takeByte b).Sound := by
  by_cases hfull : p.len.toNat = 65535
  · rw [Packer.takeByte_of_full hfull]
    exact ⟨h.sumReduced, h.emitCountBound, fun _ => hfull, h.sumIsChecksum⟩
  · rw [Packer.takeByte_of_not_full hfull]
    have hsum := h.sumIsChecksum (.inl hload)
    refine ⟨ckStep_le _ _ h.sumReduced, fun hemit => ?_, fun hovf => absurd (h.overflowOnlyWhenFull hovf) hfull,
      fun _ => ?_⟩
    · exact absurd (hload.symm.trans hemit) (by decide)
    · simp only [len_succ_toNat hfull, txPayload_write, checksum16_append_singleton, ← hsum]

theorem Packer.Sound.endPayload {p : Packer} (h : p.Sound) (hload : p.phase = .load) : p.endPayload.Sound := by
  unfold Packer.endPayload
  split_ifs
  · exact ⟨h.sumReduced, by simp, h.overflowOnlyWhenFull, by simp⟩
  · exact ⟨h.sumReduced, by simp, h.overflowOnlyWhenFull, fun _ => h.sumIsChecksum (.inl hload)⟩

/-- The count moves on only before the last beat, so it stays at or below that beat's index. -/
theorem Packer.Sound.advance {p : Packer} (h : p.Sound) (hemit : p.phase = .emit) : p.advance.Sound := by
  have hcnt := h.emitCountBound hemit
  have hlen := p.len.isLt
  unfold Packer.advance txOutLast
  split_ifs with hlast
  · exact ⟨h.sumReduced, by simp, h.overflowOnlyWhenFull, by simp⟩
  · rw [decide_eq_true_eq] at hlast
    have hsucc : (p.cnt + 1).toNat = p.cnt.toNat + 1 := by
      rw [BitVec.toNat_add_of_lt (by simp; omega)]
      rfl
    have hbound : (p.cnt + 1).toNat ≤ 8 + p.len.toNat := by omega
    exact ⟨h.sumReduced, fun _ => hbound, h.overflowOnlyWhenFull, h.sumIsChecksum⟩

theorem packer_keeps_sound : Packer.Keeps Packer.Sound where
  command p t q _ _ := ⟨by simp, by simp, by simp, by simp⟩
  takeByte p b hload h := h.takeByte hload b
  endPayload p hload h := h.endPayload hload
  advance p hemit h := h.advance hemit
  leaveErr p _ h := ⟨h.sumReduced, by simp, by simp, by simp⟩
  cleared p _ := Packer.sound_cleared p.txbuf

/-- By where the byte falls (rule R109): in the header, in the payload, or past it. -/
theorem Unpacker.Sound.takeByte {u : Unpacker} (h : u.Sound) (hrecv : u.phase = .recv) (b : Byte) :
    (u.takeByte b).Sound := by
  obtain ⟨hphase, hstatus, hvalid, -, -, hlen, -, hsum, htrail, hcnt, hbuf⟩ := Unpacker.takeByte_fields u b
  have hlenLt := u.len.isLt
  have hgood : (u.takeByte b).valid = true → (u.takeByte b).phase = .done ∧ (u.takeByte b).status = .ok ∧
      (u.takeByte b).sum = (u.takeByte b).ckw :=
    fun hv => absurd (hrecv.symm.trans (h.validMeansGood (hvalid ▸ hv)).1) (by decide)
  have hdone : (u.takeByte b).status ≠ .ok → (u.takeByte b).phase = .done :=
    fun hs => hphase.trans (h.statusOnlyInDone (hstatus ▸ hs))
  rcases lt_or_ge u.cnt.toNat 9 with hhdr | hpast
  · have hzero := h.sumZeroInHeader hhdr
    have hnotTrail : ¬ u.trail = true := fun ht => by have := h.trailOnlyPastPayload ht; omega
    rw [if_pos (.inl hhdr)] at hcnt
    rw [if_neg (by omega), hzero] at hsum
    rw [decide_eq_false (by omega), Bool.or_false] at htrail
    have hck : 9 ≤ (u.takeByte b).cnt.toNat →
        (u.takeByte b).sum = checksum16 (rxPayload (u.takeByte b).rxbuf ((u.takeByte b).cnt.toNat - 9)) := fun h9 => by
      rw [hsum, show (u.takeByte b).cnt.toNat - 9 = 0 by omega, rxPayload_zero, checksum16_nil]
    exact { sumReduced := by simp [hsum], countBound := by omega, countSaturates := by omega
            validMeansGood := hgood, statusOnlyInDone := hdone, trailOnlyPastPayload := by simp [htrail, hnotTrail]
            sumIsChecksum := hck, sumZeroInHeader := fun _ => hsum }
  · have hck := h.sumIsChecksum hpast
    have hsat := h.countSaturates hpast
    rw [if_neg (by omega)] at hlen
    rcases lt_or_ge u.cnt.toNat (9 + u.len.toNat) with hpl | hend
    · have hnotTrail : ¬ u.trail = true := fun ht => by have := h.trailOnlyPastPayload ht; omega
      rw [if_pos (.inr hpl)] at hcnt
      rw [if_pos ⟨hpast, hpl⟩] at hsum hbuf
      rw [decide_eq_false (by omega), Bool.or_false] at htrail
      have hck' : (u.takeByte b).sum = checksum16 (rxPayload (u.takeByte b).rxbuf ((u.takeByte b).cnt.toNat - 9)) := by
        rw [hsum, hbuf, show (u.takeByte b).cnt.toNat - 9 = u.cnt.toNat - 9 + 1 by omega, rxPayload_write,
          checksum16_append_singleton, ← hck]
      exact { sumReduced := hsum ▸ ckStep_le _ _ h.sumReduced, countBound := by omega
              countSaturates := by rw [hlen]; omega
              validMeansGood := hgood, statusOnlyInDone := hdone, trailOnlyPastPayload := by simp [htrail, hnotTrail]
              sumIsChecksum := fun _ => hck', sumZeroInHeader := by omega }
    · rw [if_neg (by omega)] at hcnt hsum hbuf
      have hck' : (u.takeByte b).sum = checksum16 (rxPayload (u.takeByte b).rxbuf ((u.takeByte b).cnt.toNat - 9)) := by
        rw [hsum, hbuf, hcnt, hck]
      exact { sumReduced := hsum ▸ h.sumReduced, countBound := by omega, countSaturates := by rw [hlen]; omega
              validMeansGood := hgood, statusOnlyInDone := hdone
              trailOnlyPastPayload := fun _ => by rw [hlen]; omega
              sumIsChecksum := fun _ => hck', sumZeroInHeader := by omega }

/-- The verdict of rules R139 and R186 is valid only for an `OK` datagram whose sums agree. -/
theorem Unpacker.Sound.finish {u : Unpacker} (h : u.Sound) : u.finish.Sound :=
  { sumReduced := h.sumReduced, countBound := h.countBound, countSaturates := h.countSaturates
    validMeansGood := fun hv => by simpa [Unpacker.finish, validOf] using hv
    statusOnlyInDone := fun _ => rfl
    trailOnlyPastPayload := h.trailOnlyPastPayload, sumIsChecksum := h.sumIsChecksum
    sumZeroInHeader := h.sumZeroInHeader }

theorem unpacker_keeps_sound : Unpacker.Keeps Unpacker.Sound where
  takeByte _ b hrecv h := h.takeByte hrecv b
  finish _ _ h := h.finish
  cleared u _ := Unpacker.sound_cleared u.rxbuf

/-- Settles O54: agent by agent. -/
theorem stepKeepsTheStateInvariants : Obligations.StepKeepsTheStateInvariants := by
  intro s t h ht
  rw [inv_iff] at h ⊢
  exact step_keeps packer_keeps_sound unpacker_keeps_sound h ht

/-! ## Written cells -/

/-- TXBUF below `P.LEN` has been written while a packet is in the packer (rule R76). -/
def Packer.Filled (p : Packer) : Prop :=
  p.phase = .load ∨ p.phase = .emit → ∀ j, j < p.len.toNat → (p.txbuf.find? j).isSome = true

/-- RXBUF below `U.CNT - 9` has been written (rule R76). -/
def Unpacker.Filled (u : Unpacker) : Prop := ∀ j, j + 9 < u.cnt.toNat → (u.rxbuf.find? j).isSome = true

theorem written_iff (s : State) : Written s ↔ s.p.Filled ∧ s.u.Filled :=
  ⟨fun h => ⟨h.txbuf, h.rxbuf⟩, fun h => ⟨h.1, h.2⟩⟩

theorem Packer.filled_cleared (m : Memory) : (Packer.cleared m).Filled := by simp [Packer.Filled]

theorem Unpacker.filled_cleared (m : Memory) : (Unpacker.cleared m).Filled := by simp [Unpacker.Filled]

/-- A write to the next cell after `n` written ones makes `n + 1` of them. -/
theorem isSome_find?_write {m : Memory} {n : Nat} (h : ∀ j, j < n → (m.find? j).isSome = true) (b : Byte) {j : Nat}
    (hj : j < n + 1) : ((m.write n b).find? j).isSome = true := by
  rw [find?_write]
  split_ifs with hn
  · rfl
  · exact h j (by omega)

theorem Packer.Filled.takeByte {p : Packer} (h : p.Filled) (hload : p.phase = .load) (b : Byte) :
    (p.takeByte b).Filled := by
  have hbelow := h (.inl hload)
  by_cases hfull : p.len.toNat = 65535
  · rw [Packer.takeByte_of_full hfull]; exact h
  · rw [Packer.takeByte_of_not_full hfull]
    intro _ j hj
    exact isSome_find?_write hbelow b (len_succ_toNat hfull ▸ hj)

theorem packer_keeps_filled : Packer.Keeps Packer.Filled where
  command p t q _ _ := by simp [Packer.Filled]
  takeByte p b hload h := h.takeByte hload b
  endPayload p hload h := by
    unfold Packer.endPayload
    split_ifs
    · simp [Packer.Filled]
    · exact fun _ => h (.inl hload)
  advance p _ h := by
    unfold Packer.advance
    split_ifs
    · simp [Packer.Filled]
    · exact h
  leaveErr p _ _ := by simp [Packer.Filled]
  cleared p _ := Packer.filled_cleared p.txbuf

/-- A byte moves the count past the header only together with a write (rule R186). -/
theorem Unpacker.Filled.takeByte {u : Unpacker} (h : u.Filled) (b : Byte) : (u.takeByte b).Filled := by
  obtain ⟨-, -, -, -, -, -, -, -, -, hcnt, hbuf⟩ := Unpacker.takeByte_fields u b
  intro j hj
  rw [hcnt] at hj
  rw [hbuf]
  by_cases hpl : 9 ≤ u.cnt.toNat ∧ u.cnt.toNat < 9 + u.len.toNat
  · rw [if_pos hpl]
    rw [if_pos (.inr hpl.2)] at hj
    exact isSome_find?_write (fun k hk => h k (by omega)) b (by omega)
  · rw [if_neg hpl]
    refine h j ?_
    split_ifs at hj <;> omega

theorem unpacker_keeps_filled : Unpacker.Keeps Unpacker.Filled where
  takeByte _ b _ h := h.takeByte b
  finish _ _ h := h
  cleared u _ := Unpacker.filled_cleared u.rxbuf

/-- Settles O55: the store or the received byte that raises a bound writes the cell below it. -/
theorem stepKeepsReadableCellsWritten : Obligations.StepKeepsReadableCellsWritten := by
  intro s t _ h ht
  rw [written_iff] at h ⊢
  exact step_keeps packer_keeps_filled unpacker_keeps_filled h ht

/-! ## The canonical form of the buffers -/

theorem packer_keeps_wf : Packer.Keeps fun p => p.txbuf.wf = true where
  command p t q _ h := h
  takeByte p b _ h := by
    by_cases hfull : p.len.toNat = 65535
    · rw [Packer.takeByte_of_full hfull]; exact h
    · rw [Packer.takeByte_of_not_full hfull]
      exact wf_write _ _ b h (by have := p.len.isLt; omega)
  endPayload p _ h := by unfold Packer.endPayload; split_ifs <;> exact h
  advance p _ h := by unfold Packer.advance; split_ifs <;> exact h
  leaveErr p _ h := h
  cleared p h := h

theorem unpacker_keeps_wf : Unpacker.Keeps fun u => u.rxbuf.wf = true where
  takeByte u b _ h := by
    obtain ⟨-, -, -, -, -, -, -, -, -, -, hbuf⟩ := Unpacker.takeByte_fields u b
    rw [hbuf]
    split_ifs with hpl
    · exact wf_write _ _ b h (by have := u.len.isLt; omega)
    · exact h
  finish u _ h := h
  cleared u h := h

/-- Settles O56: both agents write below index 65535 only, whatever their registers hold. -/
theorem stepKeepsBuffersCanonical : Obligations.StepKeepsBuffersCanonical := by
  intro s t h ht
  exact step_keeps packer_keeps_wf unpacker_keeps_wf h ht

/-! ## No step stops -/

/-- Rule R53 (c) keeps an output beat inside TXBUF. -/
theorem Packer.Sound.txLoadIndex_lt {p : Packer} (h : p.Sound) (hemit : p.phase = .emit) : txLoadIndex p < 65535 := by
  have hcnt := h.emitCountBound hemit
  have hlen := p.len.isLt
  unfold txLoadIndex Config.hdrLen
  omega

/-- Settles O57: whichever operation a step runs answers. -/
theorem invariantStatesAlwaysStep : Obligations.InvariantStatesAlwaysStep := by
  intro s hinv
  have hp : s.p.Sound := ((inv_iff s).mp hinv).1
  cases htake : takeOffer s s.offers with
  | none => exact ⟨_, step_of_takeOffer_none htake⟩
  | some taken =>
    obtain ⟨w, left⟩ := taken
    cases hdec : decodeWord s.typeCode w with
    | error e => exact ⟨_, step_of_decodeWord_error htake hdec⟩
    | ok i =>
      rw [step_of_decodeWord_ok htake hdec]
      exact exec_answers fun _ => hp.txLoadIndex_lt

/-! ## After reset -/

/-- Settles O53: cleared agents are sound and claim no written cell. -/
theorem resetMeetsTheInvariants : Obligations.ResetMeetsTheInvariants := by
  have hfilled : State.reset.p.Filled ∧ State.reset.u.Filled :=
    ⟨Packer.filled_cleared [], Unpacker.filled_cleared []⟩
  exact ⟨(inv_iff _).mpr ⟨Packer.sound_cleared [], Unpacker.sound_cleared []⟩, (written_iff _).mpr hfilled,
    ⟨wf_nil, wf_nil⟩, rfl, rfl, rfl, rfl⟩

end Sys2Proof.Machine
end

section
/-!
Each agent's events act on that agent alone and depend on it alone (rule R30). `exec_of_samePacker` and
`exec_of_sameUnpacker` say both at once: an event that answers from one state answers from every state that agrees with it
on the agent, with the agent's part of the answer and all the rest as it was. O32 and O34 follow.
-/

namespace Sys2Proof.Machine

/-- The two states agree on what a packer event reads and writes: the packer, the sink and `TYPE_CODE`. -/
structure SamePacker (s t : State) : Prop where
  packer : t.p = s.p
  sink : t.sink = s.sink
  typeCode : t.typeCode = s.typeCode

/-- The two states agree on what an unpacker event reads and writes: the unpacker, the replies, the draws and
`TYPE_CODE`. -/
structure SameUnpacker (s t : State) : Prop where
  unpacker : t.u = s.u
  reads : t.reads = s.reads
  draws : t.draws = s.draws
  typeCode : t.typeCode = s.typeCode

theorem SamePacker.refl (s : State) : SamePacker s s := ⟨rfl, rfl, rfl⟩

theorem SameUnpacker.refl (s : State) : SameUnpacker s s := ⟨rfl, rfl, rfl, rfl⟩

/-- The packer's part of `s'`, and everything else from `s`. -/
def State.withPackerOf (s s' : State) : State := { s with p := s'.p, sink := s'.sink }

/-- The unpacker's part of `s'`, and everything else from `s`. -/
def State.withUnpackerOf (s s' : State) : State := { s with u := s'.u, reads := s'.reads, draws := s'.draws }

theorem SamePacker.withPackerOf_eq {s t : State} (h : SamePacker s t) : t.withPackerOf s = t := by
  simp [State.withPackerOf, ← h.packer, ← h.sink]

theorem SameUnpacker.withUnpackerOf_eq {s t : State} (h : SameUnpacker s t) : t.withUnpackerOf s = t := by
  simp [State.withUnpackerOf, ← h.unpacker, ← h.reads, ← h.draws]

theorem onPacker_of_samePacker {s t s' : State} {φ : PackerPhase} {f : Packer → Packer} (h : SamePacker s t)
    (hs : s.onPacker φ f = .next s') : t.onPacker φ f = .next (t.withPackerOf s') := by
  obtain ⟨hφ, rfl⟩ | ⟨hφ, rfl⟩ := onPacker_cases hs
  · simp [State.onPacker, State.withPackerOf, State.setPacker, h.packer, ← h.sink, hφ]
  · simp [State.onPacker, h.packer, hφ, h.withPackerOf_eq]

theorem onUnpacker_of_sameUnpacker {s t s' : State} {φ : UnpackerPhase} {f : Unpacker → Unpacker}
    (h : SameUnpacker s t) (hs : s.onUnpacker φ f = .next s') : t.onUnpacker φ f = .next (t.withUnpackerOf s') := by
  obtain ⟨hφ, rfl⟩ | ⟨hφ, rfl⟩ := onUnpacker_cases hs
  · simp [State.onUnpacker, State.withUnpackerOf, State.setUnpacker, h.unpacker, ← h.reads, ← h.draws, hφ]
  · simp [State.onUnpacker, h.unpacker, hφ, h.withUnpackerOf_eq]

theorem exec_of_samePacker {i : Instr} {s t s' : State} (hi : isPackerEvent i = true) (h : SamePacker s t)
    (hs : exec i s = .next s') : exec i t = .next (t.withPackerOf s') := by
  cases i with
  | hdrData | hdrMetadata | hdrAck | hdrFin | hdrUnknown | rxBeat | rxRead | rxRelease | reset => cases hi
  | txCmd k q => exact onPacker_of_samePacker h (exec_txCmd k q s ▸ hs)
  | txPlBeat keep last b => exact onPacker_of_samePacker h (exec_txPlBeat keep last b s ▸ hs)
  | txErrAck => exact onPacker_of_samePacker h (exec_txErrAck s ▸ hs)
  | txOutBeat =>
    obtain ⟨hemit, b, hb, rfl⟩ | ⟨hemit, rfl⟩ := exec_txOutBeat_cases hs
    · simp [exec, execTxOutBeat, h.packer, h.typeCode, hemit, hb, State.withPackerOf, State.setPacker, State.emitBeat,
        h.sink]
    · simp [exec, execTxOutBeat, h.packer, hemit, h.withPackerOf_eq]

theorem exec_of_sameUnpacker {i : Instr} {s t s' : State} (hi : isUnpackerEvent i = true) (h : SameUnpacker s t)
    (hs : exec i s = .next s') : exec i t = .next (t.withUnpackerOf s') := by
  cases i with
  | txCmd | txPlBeat | txOutBeat | txErrAck | reset => cases hi
  | hdrData | hdrMetadata | hdrAck | hdrFin | hdrUnknown =>
    simp only [exec_hdrData, exec_hdrMetadata, exec_hdrAck, exec_hdrFin, exec_hdrUnknown, h.typeCode] at hs ⊢
    exact onUnpacker_of_sameUnpacker h hs
  | rxBeat keep last b => exact onUnpacker_of_sameUnpacker h (exec_rxBeat keep last b s ▸ hs)
  | rxRelease => exact onUnpacker_of_sameUnpacker h (exec_rxRelease s ▸ hs)
  | rxRead a =>
    rw [exec_rxRead] at hs ⊢
    cases hs
    rw [h.unpacker, h.draws]
    split_ifs <;>
      simp [State.withUnpackerOf, State.reply, State.drawn, ← h.unpacker, h.reads, h.draws]

/-! ## The frame of one event -/

theorem eq_withPackerOf_of_exec {i : Instr} {s t : State} (hi : isPackerEvent i = true) (ht : exec i s = .next t) :
    t = s.withPackerOf t :=
  Host.Outcome.next.inj (ht.symm.trans (exec_of_samePacker hi (SamePacker.refl s) ht))

theorem eq_withUnpackerOf_of_exec {i : Instr} {s t : State} (hi : isUnpackerEvent i = true) (ht : exec i s = .next t) :
    t = s.withUnpackerOf t :=
  Host.Outcome.next.inj (ht.symm.trans (exec_of_sameUnpacker hi (SameUnpacker.refl s) ht))

theorem sameUnpacker_of_exec {i : Instr} {s t : State} (hi : isPackerEvent i = true) (ht : exec i s = .next t) :
    SameUnpacker s t := by
  rw [eq_withPackerOf_of_exec hi ht]
  exact ⟨rfl, rfl, rfl, rfl⟩

theorem samePacker_of_exec {i : Instr} {s t : State} (hi : isUnpackerEvent i = true) (ht : exec i s = .next t) :
    SamePacker s t := by
  rw [eq_withUnpackerOf_of_exec hi ht]
  exact ⟨rfl, rfl, rfl⟩

theorem isPackerEvent_or_isUnpackerEvent_or_eq_reset (i : Instr) :
    isPackerEvent i = true ∨ isUnpackerEvent i = true ∨ i = .reset := by
  cases i <;> simp [isPackerEvent, isUnpackerEvent]

theorem isUnpackerEvent_of_isPackerEvent {i : Instr} (hi : isPackerEvent i = true) : isUnpackerEvent i = false := by
  cases i <;> simp_all [isPackerEvent, isUnpackerEvent]

/-- No operation writes `TYPE_CODE` or the offers. -/
theorem exec_typeCode_offers {i : Instr} {s t : State} (ht : exec i s = .next t) :
    t.typeCode = s.typeCode ∧ t.offers = s.offers := by
  obtain hi | hi | rfl := isPackerEvent_or_isUnpackerEvent_or_eq_reset i
  · rw [eq_withPackerOf_of_exec hi ht]; exact ⟨rfl, rfl⟩
  · rw [eq_withUnpackerOf_of_exec hi ht]; exact ⟨rfl, rfl⟩
  · cases ht; exact ⟨rfl, rfl⟩

/-- Settles O32: the frames of the two kinds of event. -/
theorem eventsChangeTheirOwnAgentOnly : Obligations.EventsChangeTheirOwnAgentOnly := by
  intro i s t ht
  obtain ⟨htc, hoffers⟩ := exec_typeCode_offers ht
  refine ⟨htc, hoffers, fun hi => ?_, fun hi => ?_⟩
  · have h := sameUnpacker_of_exec hi ht
    exact ⟨h.unpacker, h.reads, h.draws⟩
  · have h := samePacker_of_exec hi ht
    exact ⟨h.packer, h.sink⟩

/-! ## Interleavings -/

theorem execAll_cons_of_next {i : Instr} {s t : State} (h : exec i s = .next t) (is : List Instr) :
    execAll (i :: is) s = execAll is t := by
  simp [execAll, h]

theorem execAll_cons_cases {i : Instr} {is : List Instr} {s a : State} (h : execAll (i :: is) s = .next a) :
    ∃ t, exec i s = .next t ∧ execAll is t = .next a := by
  cases hi : exec i s <;> simp [execAll, hi] at h
  exact ⟨_, rfl, h⟩

/-- An unpacker event never stops. -/
theorem exec_answers_of_isUnpackerEvent {i : Instr} (hi : isUnpackerEvent i = true) (s : State) :
    ∃ t, exec i s = .next t :=
  exec_answers fun h => by simp [h, isUnpackerEvent] at hi

/-- The whole run `s` beside the two runs `a` and `b` of one agent's events each: the packer's run answers as far as the
whole run does, and the unpacker's run never stops. -/
theorem execAll_interleaving {is : List Instr} (his : ∀ i ∈ is, isPackerEvent i = true ∨ isUnpackerEvent i = true)
    {s a b a' : State} (hp : SamePacker a s) (hu : SameUnpacker b s)
    (ha : execAll (is.filter isPackerEvent) a = .next a') :
    ∃ s' b', execAll is s = .next s' ∧ execAll (is.filter isUnpackerEvent) b = .next b' ∧
      SamePacker a' s' ∧ SameUnpacker b' s' := by
  induction is generalizing s a b with
  | nil =>
    cases ha
    exact ⟨s, b, rfl, rfl, hp, hu⟩
  | cons i is ih =>
    rw [List.forall_mem_cons] at his
    obtain ⟨hkind, his⟩ := his
    by_cases hi : isPackerEvent i = true
    · rw [List.filter_cons_of_pos hi] at ha
      rw [List.filter_cons_of_neg (by simp [isUnpackerEvent_of_isPackerEvent hi])]
      obtain ⟨a₁, ha₁, ha⟩ := execAll_cons_cases ha
      have hs₁ := exec_of_samePacker hi hp ha₁
      rw [execAll_cons_of_next hs₁]
      have hp₁ : SamePacker a₁ (s.withPackerOf a₁) :=
        ⟨rfl, rfl, hp.typeCode.trans (exec_typeCode_offers ha₁).1.symm⟩
      have hu₁ : SameUnpacker b (s.withPackerOf a₁) := ⟨hu.unpacker, hu.reads, hu.draws, hu.typeCode⟩
      exact ih his hp₁ hu₁ ha
    · have hi' : isUnpackerEvent i = true := hkind.resolve_left hi
      rw [List.filter_cons_of_neg hi] at ha
      rw [List.filter_cons_of_pos hi']
      obtain ⟨b₁, hb₁⟩ := exec_answers_of_isUnpackerEvent hi' b
      have hs₁ := exec_of_sameUnpacker hi' hu hb₁
      rw [execAll_cons_of_next hs₁, execAll_cons_of_next hb₁]
      have hp₁ : SamePacker a (s.withUnpackerOf b₁) := ⟨hp.packer, hp.sink, hp.typeCode⟩
      have hu₁ : SameUnpacker b₁ (s.withUnpackerOf b₁) :=
        ⟨rfl, rfl, rfl, hu.typeCode.trans (exec_typeCode_offers hb₁).1.symm⟩
      exact ih his hp₁ hu₁ ha

/-- Settles O34: all three runs start from the same state. -/
theorem interleavingDoesNotMatter : Obligations.InterleavingDoesNotMatter := by
  intro is s a his ha
  obtain ⟨t, b, ht, hb, hp, hu⟩ := execAll_interleaving his (SamePacker.refl s) (SameUnpacker.refl s) ha
  exact ⟨t, b, ht, hb, hp.packer, hp.sink, hu.unpacker, hu.reads, hu.draws⟩

end Sys2Proof.Machine
end

section
/-!
TXBUF behind an output beat (rules R72, R76, R160): `tx_out_data` past the header, where `P.CNT - 9` is a cell and
where it is none. O58 and O20 are settled here.
-/

namespace Sys2Proof.Machine

/-- Past the header `tx_out_data` is the cell at `P.CNT - 9` (rule R160). -/
theorem txOutData?_of_cell {p : Packer} (hcnt : 9 ≤ p.cnt.toNat) (hcell : txLoadIndex p < 65535) (tc : TypeCode) :
    txOutData? tc p = some (readTxbuf p.txbuf (txLoadIndex p)) := by
  rw [txOutData?, if_neg (by omega), if_pos hcell]

/-- Index 65535 and above are no cells (rule R72). -/
theorem txOutData?_of_no_cell {p : Packer} (hcnt : 65544 ≤ p.cnt.toNat) (tc : TypeCode) : txOutData? tc p = none := by
  have hidx : ¬ txLoadIndex p < 65535 := by unfold txLoadIndex Config.hdrLen; omega
  rw [txOutData?, if_neg (by omega), if_neg hidx]

/-- What a written cell reads as (rule R79). -/
theorem readTxbuf_of_find? {m : Memory} {i : Nat} {b : Byte} (h : m.find? i = some b) : readTxbuf m i = b := by
  rw [readTxbuf, h, Option.getD_some]

/-- Rule R53 (c) keeps an output beat past the header below `P.LEN`. -/
theorem Packer.Sound.txLoadIndex_lt_len {p : Packer} (h : p.Sound) (hemit : p.phase = .emit)
    (hcnt : 9 ≤ p.cnt.toNat) : txLoadIndex p < p.len.toNat := by
  have hbound := h.emitCountBound hemit
  unfold txLoadIndex Config.hdrLen
  omega

/-- Settles O58: the cell lies below `P.LEN`, where TXBUF has been written. -/
theorem txOutBeatReadsAWrittenCell : Obligations.TxOutBeatReadsAWrittenCell := by
  intro s hinv hwritten hemit hcnt
  have hsound : s.p.Sound := ((inv_iff s).mp hinv).1
  have hfilled := hwritten.txbuf (.inr hemit) _ (hsound.txLoadIndex_lt_len hemit hcnt)
  obtain ⟨b, hb⟩ := Option.isSome_iff_exists.mp hfilled
  refine ⟨b, hb, ?_⟩
  simp [txOutBeat?, hemit, txOutData?_of_cell hcnt (hsound.txLoadIndex_lt hemit), readTxbuf_of_find? hb]

/-- Settles O20: with no byte to emit the output beat stops. -/
theorem txOutBeatPastTheBufferFaults : Obligations.TxOutBeatPastTheBufferFaults := by
  intro s hemit hcnt
  simp [exec, execTxOutBeat, hemit, txOutData?_of_no_cell hcnt, txLoadIndex]

end Sys2Proof.Machine
end

section
/-!
Which operations write the buffers (rules R70, R71, R83, R84, R89), and which cells of RXBUF a received datagram writes
(rule R186). O33 and O31 are settled here.
-/

namespace Sys2Proof.Machine

/-! ## Who writes -/

theorem Packer.advance_txbuf (p : Packer) : p.advance.txbuf = p.txbuf := by
  unfold Packer.advance
  split_ifs <;> rfl

theorem onPacker_txbuf {s t : State} {φ : PackerPhase} {f : Packer → Packer} (hf : ∀ p, (f p).txbuf = p.txbuf)
    (ht : s.onPacker φ f = .next t) : t.p.txbuf = s.p.txbuf := by
  obtain ⟨-, rfl⟩ | ⟨-, rfl⟩ := onPacker_cases ht
  · exact hf s.p
  · rfl

/-- An operation keeps TXBUF, or is a payload beat in `LOAD` (rules R70, R83). -/
theorem txbuf_eq_or_of_exec {i : Instr} {s t : State} (ht : exec i s = .next t) :
    t.p.txbuf = s.p.txbuf ∨ s.p.phase = .load ∧ ∃ keep last b, i = .txPlBeat keep last b := by
  cases i with
  | hdrData | hdrMetadata | hdrAck | hdrFin | hdrUnknown | rxBeat | rxRead | rxRelease =>
    exact .inl (congrArg Packer.txbuf (samePacker_of_exec rfl ht).packer)
  | txCmd k q => exact .inl (onPacker_txbuf (fun p => p.command_txbuf k q) (exec_txCmd k q s ▸ ht))
  | txErrAck => exact .inl (onPacker_txbuf Packer.leaveErr_txbuf (exec_txErrAck s ▸ ht))
  | txPlBeat keep last b =>
    obtain ⟨hload, -⟩ | ⟨-, rfl⟩ := onPacker_cases (exec_txPlBeat keep last b s ▸ ht)
    · exact .inr ⟨hload, keep, last, b, rfl⟩
    · exact .inl rfl
  | txOutBeat =>
    obtain ⟨-, _, -, rfl⟩ | ⟨-, rfl⟩ := exec_txOutBeat_cases ht
    · exact .inl s.p.advance_txbuf
    · exact .inl rfl
  | reset => cases ht; exact .inl rfl

/-- A header row is the arrival of its datagram in `RECV`. -/
theorem exec_eq_onUnpacker_of_rowDatagram? {s : State} {i : Instr} {d : List Byte}
    (hd : rowDatagram? s.typeCode i = some d) : exec i s = s.onUnpacker .recv (·.unpack d) :=
  exec_of_rowDatagram? s i d hd

theorem onUnpacker_recv_rxbuf {s t : State} {f : Unpacker → Unpacker} (ht : s.onUnpacker .recv f = .next t) :
    t.u.rxbuf = s.u.rxbuf ∨ s.u.phase = .recv := by
  obtain ⟨hrecv, -⟩ | ⟨-, rfl⟩ := onUnpacker_cases ht
  · exact .inr hrecv
  · exact .inl rfl

/-- An operation keeps RXBUF, or is a received beat or a whole datagram in `RECV` (rules R71, R84). -/
theorem rxbuf_eq_or_of_exec {i : Instr} {s t : State} (ht : exec i s = .next t) :
    t.u.rxbuf = s.u.rxbuf ∨
      s.u.phase = .recv ∧ ((∃ keep last b, i = .rxBeat keep last b) ∨ ∃ d, rowDatagram? s.typeCode i = some d) := by
  cases i with
  | txCmd | txPlBeat | txOutBeat | txErrAck =>
    exact .inl (congrArg Unpacker.rxbuf (sameUnpacker_of_exec rfl ht).unpacker)
  | hdrData | hdrMetadata | hdrAck | hdrFin | hdrUnknown =>
    rw [exec_eq_onUnpacker_of_rowDatagram? rfl] at ht
    exact (onUnpacker_recv_rxbuf ht).imp_right fun hrecv => ⟨hrecv, .inr ⟨_, rfl⟩⟩
  | rxBeat keep last b =>
    exact (onUnpacker_recv_rxbuf (exec_rxBeat keep last b s ▸ ht)).imp_right fun hrecv =>
      ⟨hrecv, .inl ⟨keep, last, b, rfl⟩⟩
  | rxRelease =>
    obtain ⟨-, rfl⟩ | ⟨-, rfl⟩ := onUnpacker_cases (exec_rxRelease s ▸ ht)
    · exact .inl s.u.release_rxbuf
    · exact .inl rfl
  | rxRead a =>
    rw [exec_rxRead] at ht
    cases ht
    split_ifs <;> exact .inl rfl
  | reset => cases ht; exact .inl rfl

/-- Settles O33: an operation that does not keep a buffer is its stream's, in the phase that takes bytes. -/
theorem buffersAreWrittenByTheirStreamsOnly : Obligations.BuffersAreWrittenByTheirStreamsOnly := by
  intro i s t ht
  have htx := txbuf_eq_or_of_exec ht
  have hrx := rxbuf_eq_or_of_exec ht
  refine ⟨fun hi => htx.resolve_right ?_, fun hload => htx.resolve_right ?_, fun hi hrow => hrx.resolve_right ?_,
    fun hdone => hrx.resolve_right ?_⟩
  · rintro ⟨-, keep, last, b, rfl⟩
    exact hi keep last b rfl
  · exact fun h => hload h.1
  · rintro ⟨-, ⟨keep, last, b, rfl⟩ | ⟨d, hd⟩⟩
    · exact hi keep last b rfl
    · cases hrow.symm.trans hd
  · exact fun h => absurd (hdone.symm.trans h.1) (by decide)

/-! ## Which cells a datagram writes -/

/-- `v` has consumed what `u` has and perhaps more, and differs in RXBUF at most at the payload bytes consumed between. -/
structure Unpacker.ConsumesTo (u v : Unpacker) : Prop where
  cnt_le : u.cnt.toNat ≤ v.cnt.toNat
  read_eq : ∀ a, a + 9 < u.cnt.toNat ∨ v.cnt.toNat ≤ a + 9 → readRxbuf v.rxbuf a = readRxbuf u.rxbuf a

theorem Unpacker.ConsumesTo.refl (u : Unpacker) : u.ConsumesTo u := ⟨le_rfl, fun _ _ => rfl⟩

theorem Unpacker.ConsumesTo.trans {u v w : Unpacker} (huv : u.ConsumesTo v) (hvw : v.ConsumesTo w) :
    u.ConsumesTo w where
  cnt_le := huv.cnt_le.trans hvw.cnt_le
  read_eq a ha := by
    have huvCnt := huv.cnt_le
    have hvwCnt := hvw.cnt_le
    exact (hvw.read_eq a (by omega)).trans (huv.read_eq a (by omega))

/-- A payload byte goes to the cell `U.CNT - 9` and moves the count past it (rule R186). -/
theorem Unpacker.consumesTo_takeByte (u : Unpacker) (b : Byte) : u.ConsumesTo (u.takeByte b) := by
  obtain ⟨-, -, -, -, -, -, -, -, -, hcnt, hbuf⟩ := Unpacker.takeByte_fields u b
  refine ⟨by split_ifs at hcnt <;> omega, fun a ha => ?_⟩
  by_cases hpl : 9 ≤ u.cnt.toNat ∧ u.cnt.toNat < 9 + u.len.toNat
  · rw [if_pos (.inr hpl.2)] at hcnt
    rw [hbuf, if_pos hpl, readRxbuf_write, if_neg (by omega)]
  · rw [hbuf, if_neg hpl]

/-- The verdict consumes nothing. -/
theorem Unpacker.consumesTo_finish (u : Unpacker) : u.ConsumesTo u.finish := ⟨le_rfl, fun _ _ => rfl⟩

theorem Unpacker.consumesTo_beat (u : Unpacker) (keep last : Bool) (b : Byte) : u.ConsumesTo (u.beat keep last b) := by
  cases keep <;> cases last
  · exact .refl u
  · exact u.consumesTo_finish
  · exact u.consumesTo_takeByte b
  · exact (u.consumesTo_takeByte b).trans (Unpacker.consumesTo_finish _)

/-- A datagram is beats (rule R118). -/
theorem Unpacker.consumesTo_unpack (u : Unpacker) (d : List Byte) : u.ConsumesTo (u.unpack d) := by
  induction u, d using Unpacker.unpack.induct with
  | case1 u => exact u.consumesTo_beat false true 0
  | case2 u b => exact u.consumesTo_beat true true b
  | case3 u b c rest ih => exact (u.consumesTo_beat true false b).trans ih

/-- Settles O31: a header row is its datagram in `RECV`, and nothing in `DONE`. -/
theorem headerRowFrame : Obligations.HeaderRowFrame := by
  intro s t i d hd ht
  rw [exec_eq_onUnpacker_of_rowDatagram? hd] at ht
  obtain ⟨-, rfl⟩ | ⟨-, rfl⟩ := onUnpacker_cases ht
  · exact ⟨rfl, (s.u.consumesTo_unpack d).read_eq⟩
  · exact ⟨rfl, fun _ _ => rfl⟩

end Sys2Proof.Machine
end

section
/-!
The words of the ports and the operations they stand for, in both directions (rules R101, R103, R110, R111, R119), and the
header word as its nine bytes. O1, O2, O3, O4 and O5 are settled here.
-/

namespace Sys2Proof.Machine

/-- Settles O1: `decodeWord_encodeWord`, row by row of the table. -/
theorem encodedOperationDecodesBack : Obligations.EncodedOperationDecodesBack :=
  fun _ _ htc hi => decodeWord_encodeWord htc hi

/-! ## From the word to the operation and back -/

/-- The decoder uses the fallback row only for a byte that is none of the codes (rule R112 (a)). -/
theorem wellFormed_decodeHeader (tc : TypeCode) (h : HeaderWord) (rest : List Byte) :
    (decodeHeader tc h rest).wellFormed tc = true := by
  cases htype : tc.typeOf? (h.extractLsb' 64 8) with
  | none => simp only [decodeHeader, htype, Instr.wellFormed, Option.isNone_none]
  | some k => cases k <;> simp only [decodeHeader, htype, Instr.wellFormed]

/-- The row of a header word has that word: its type byte is the row's code, or is kept by the fallback row. -/
theorem encodeWord_decodeHeader (tc : TypeCode) (h : HeaderWord) (rest : List Byte) :
    encodeWord tc (decodeHeader tc h rest) = .rxDatagram h rest := by
  cases htype : tc.typeOf? (h.extractLsb' 64 8) with
  | none => simp only [decodeHeader, htype, encodeWord, headerWord_of_fields]
  | some k =>
    have hcode := eq_code_of_typeOf? tc _ k htype
    cases k <;> simp only [decodeHeader, htype, encodeWord, ← hcode, headerWord_of_fields]

/-- A one-bit port decodes only at 1, and then to its one operation. -/
theorem eq_one_and_eq_of_bitFlag {b : BitVec 1} {i j : Instr}
    (h : (if bitFlag b then .ok j else .error .signalLow : Except DecodeError Instr) = .ok i) : b = 1#1 ∧ i = j := by
  split_ifs at h with hb
  cases h
  exact ⟨beq_iff_eq.mp hb, rfl⟩

/-- Settles O2: port by port. -/
theorem decodedWordEncodesBack : Obligations.DecodedWordEncodesBack := by
  intro tc w i h
  cases w with
  | txCmd w =>
    cases h
    exact ⟨rfl, by simp only [encodeWord, classCode_ofClass, commandWord_of_fields]⟩
  | txPl w | rxIn w =>
    cases h
    exact ⟨rfl, by simp only [encodeWord, flagBit_bitFlag, streamWord_of_fields]⟩
  | rxRd a =>
    cases h
    exact ⟨rfl, rfl⟩
  | txOut b | txErrAck b | rxRelease b | rst b =>
    obtain ⟨rfl, rfl⟩ := eq_one_and_eq_of_bitFlag h
    exact ⟨rfl, rfl⟩
  | rxDatagram hw rest =>
    cases h
    exact ⟨wellFormed_decodeHeader tc hw rest, encodeWord_decodeHeader tc hw rest⟩

/-! ## The row of a header word -/

theorem typeOf?_eq_none {tc : TypeCode} {t : Byte} (h : ∀ k, t ≠ tc.code k) : tc.typeOf? t = none :=
  Option.eq_none_iff_forall_ne_some.mpr fun k hk => h k (eq_code_of_typeOf? tc t k hk)

/-- Settles O4: each header word is the word of a well-formed row. -/
theorem headerRowIsSelectedByTheTypeByte : Obligations.HeaderRowIsSelectedByTheTypeByte := by
  intro tc t seq len ck rest htc
  refine ⟨?_, ?_, ?_, ?_, fun hunknown => ?_⟩
  · rintro rfl; exact decodeWord_encodeWord (i := .hdrData seq len ck rest) htc rfl
  · rintro rfl; exact decodeWord_encodeWord (i := .hdrMetadata seq len ck rest) htc rfl
  · rintro rfl; exact decodeWord_encodeWord (i := .hdrAck seq len ck rest) htc rfl
  · rintro rfl; exact decodeWord_encodeWord (i := .hdrFin seq len ck rest) htc rfl
  · exact decodeWord_encodeWord (i := .hdrUnknown t seq len ck rest) htc
      (Option.isNone_iff_eq_none.mpr (typeOf?_eq_none hunknown))

/-- Settles O5: each word is decoded by evaluation. -/
theorem writtenOutWordsDecodeToTheirRows : Obligations.WrittenOutWordsDecodeToTheirRows := by
  unfold Obligations.WrittenOutWordsDecodeToTheirRows
  decide

/-! ## The header word as its bytes -/

/-- A concatenation read as a number, the left part most significant. -/
theorem toNat_append_eq_mul_add {n m : Nat} (x : BitVec n) (y : BitVec m) :
    (x ++ y).toNat = x.toNat * 2 ^ m + y.toNat := by
  rw [BitVec.toNat_append, ← Nat.shiftLeft_add_eq_or_of_lt y.isLt, Nat.shiftLeft_eq]

/-- The nine bytes are the header word of the fields they make up (rule R101). -/
theorem append_bytes_eq_headerWord (d0 d1 d2 d3 d4 d5 d6 d7 d8 : Byte) :
    (d0 ++ d1 ++ d2 ++ d3 ++ d4 ++ d5 ++ d6 ++ d7 ++ d8 : HeaderWord) =
      headerWord d0 (be32 d1 d2 d3 d4) (be16 d5 d6) (be16 d7 d8) := by
  apply BitVec.eq_of_toNat_eq
  simp only [headerWord, be32, be16, toNat_append_eq_mul_add]
  omega

/-- Settles O3: the number by `toNat_append_eq_mul_add`, the fields as those of a header word. -/
theorem headerWordFieldsAreTheHeaderBytes : Obligations.HeaderWordFieldsAreTheHeaderBytes := by
  intro d0 d1 d2 d3 d4 d5 d6 d7 d8 h
  have hfields : h = headerWord d0 (be32 d1 d2 d3 d4) (be16 d5 d6) (be16 d7 d8) :=
    append_bytes_eq_headerWord d0 d1 d2 d3 d4 d5 d6 d7 d8
  refine ⟨?_, ?_⟩
  · simp only [h, toNat_append_eq_mul_add, Nat.reducePow]
  · rw [hfields]
    exact ⟨headerWord_type .., headerWord_seq .., headerWord_len .., headerWord_ck ..⟩

end Sys2Proof.Machine
end

section
/-!
A step with one word on offer (rules R17, R119, R154, R185). O9 is settled here.
-/

namespace Sys2Proof.Machine

/-- An operation whose event is not enabled answers the same state (rules R154, R185). -/
theorem exec_of_not_eventEnabled {s : State} {i : Instr} (h : eventEnabled s i = false) : exec i s = .next s := by
  cases i with
  | rxRead | reset => cases h
  | hdrData | hdrMetadata | hdrAck | hdrFin | hdrUnknown | txCmd | txPlBeat | txOutBeat | txErrAck | rxBeat | rxRelease =>
    exact if_neg (of_decide_eq_false h)

/-- Which word moves does not depend on what is offered. -/
@[simp] theorem offerMoves_setOffers (s : State) (ws : List PortWord) (w : PortWord) :
    offerMoves (s.setOffers ws) w = offerMoves s w := rfl

@[simp] theorem eventEnabled_setOffers (s : State) (ws : List PortWord) (i : Instr) :
    eventEnabled (s.setOffers ws) i = eventEnabled s i := rfl

theorem step_of_one_offer_moves {s : State} {w : PortWord} {i : Instr} (hi : decodeWord s.typeCode w = .ok i)
    (hmoves : offerMoves s w = true) : step (s.setOffers [w]) = exec i (s.setOffers []) :=
  step_of_decodeWord_ok (s := s.setOffers [w]) (takeOffer_cons_of_moves hmoves []) hi

theorem step_of_one_offer_waits {s : State} {w : PortWord} (hwaits : offerMoves s w = false) :
    step (s.setOffers [w]) = .next (s.setOffers [w]) :=
  step_of_takeOffer_none (takeOffer_cons_of_waits hwaits [])

/-- Either the word waits, or it is taken off as a pulse outside its phase and the block stays as it was. -/
theorem step_of_one_offer_not_enabled {s : State} {w : PortWord} {i : Instr} (hi : decodeWord s.typeCode w = .ok i)
    (h : eventEnabled s i = false) : ∃ left, step (s.setOffers [w]) = .next (s.setOffers left) := by
  cases hmoves : offerMoves s w with
  | false => exact ⟨[w], step_of_one_offer_waits hmoves⟩
  | true => exact ⟨[], (step_of_one_offer_moves hi hmoves).trans (exec_of_not_eventEnabled h)⟩

/-- A table word that decodes is a port word that decodes under the default codes. -/
theorem exists_of_decodeTableWord {nbits w : Nat} {i : Instr} (h : decodeTableWord nbits w = some i) :
    ∃ pw, tableWord nbits w = some pw ∧ decodeWord TypeCode.standard pw = .ok i := by
  unfold decodeTableWord at h
  split at h
  · next pw hpw =>
    cases hdec : decodeWord TypeCode.standard pw <;> rw [hdec] at h <;> cases h
    exact ⟨pw, hpw, hdec⟩
  · cases h

theorem withFetchWord_of_tableWord {nbits w : Nat} {pw : PortWord} (h : tableWord nbits w = some pw) (s : State) :
    s.withFetchWord nbits w = s.setOffers [pw] := by
  simp [State.withFetchWord, h]

/-- Settles O9: the table word's port word is the one word on offer. -/
theorem tableWordRunsAtTheNextStep : Obligations.TableWordRunsAtTheNextStep := by
  intro s nbits w i htc hi
  obtain ⟨pw, hpw, hdec⟩ := exists_of_decodeTableWord hi
  rw [← htc] at hdec
  rw [withFetchWord_of_tableWord hpw]
  exact ⟨fun henabled => step_of_one_offer_moves hdec ((offerMoves_iff_of_decodeWord_ok hdec).mpr (.inl henabled)),
    step_of_one_offer_not_enabled hdec⟩

end Sys2Proof.Machine
end

section
/-!
Runs of received beats: past the declared payload (rules R114, R187 (h)), and a header row as its beats (rule R118). O24
and O29 are settled here.
-/

namespace Sys2Proof.Machine

/-- Any number of beats past the declared payload set `U.TRAIL` when they deliver a byte, and do nothing else. -/
theorem Unpacker.foldl_beat_trailing (bs : List (Bool × Byte)) {u : Unpacker} (h9 : 9 ≤ u.cnt.toNat)
    (hend : u.cnt.toNat = 9 + u.len.toNat) :
    bs.foldl (fun v x => v.beat x.1 false x.2) u = { u with trail := u.trail || !(delivered bs).isEmpty } := by
  induction bs generalizing u with
  | nil => simp [delivered]
  | cons x bs ih =>
    obtain ⟨keep, b⟩ := x
    rw [List.foldl_cons, Unpacker.beat_trailing u keep b h9 hend, ih (u := { u with trail := u.trail || keep }) h9 hend]
    cases keep <;> simp [delivered]

/-- Settles O24: the run delivers a byte, so `U.TRAIL` ends at 1. -/
theorem trailingBytesOnlySetTheFlag : Obligations.TrailingBytesOnlySetTheFlag := by
  intro s bs hrecv h9 hend hbs
  have htrail : (s.u.trail || !(delivered bs).isEmpty) = true := by simp [hbs]
  rw [execAll_rxBeats bs s hrecv, Unpacker.foldl_beat_trailing bs h9 hend, htrail]
  rfl

/-- Settles O29: both sides put the fold of the datagram's beats in the unpacker. -/
theorem headerRowIsItsBeats : Obligations.HeaderRowIsItsBeats := by
  intro s i d b hd hrecv
  rw [exec_eq_onUnpacker_of_rowDatagram? hd, State.onUnpacker, if_pos hrecv, Unpacker.unpack_fold,
    execAll_datagram _ _ s hrecv]

end Sys2Proof.Machine
end

section
/-!
The function level (rules R112 (d), R114, R180, R183): when a datagram decodes and to what, what bytes appended to it do,
and the checksum that no sum can be. O42 and O44 are settled here.
-/

namespace Sys2Proof.Machine

/-- The packet that rule R180 reads from a datagram that decodes. -/
def packetOf (d : List Byte) : DecodedPacket :=
  let l := be16 (byteAt d 5) (byteAt d 6)
  { typeRaw := byteAt d 0
    seq := sint32 (be32 (byteAt d 1) (byteAt d 2) (byteAt d 3) (byteAt d 4))
    payloadLength := l
    checksum := be16 (byteAt d 7) (byteAt d 8)
    payload := (d.drop 9).take l.toNat
    trailing := decide (9 + l.toNat < d.length) }

/-- A datagram decodes when it is as long as its header and its declared payload, and then to its fields (rule R180). -/
theorem decodeDatagram_eq_ok_iff (d : List Byte) (pkt : DecodedPacket) :
    decodeDatagram d = .ok pkt ↔
      9 + (be16 (byteAt d 5) (byteAt d 6)).toNat ≤ d.length ∧ pkt = packetOf d := by
  unfold decodeDatagram Config.hdrLen packetOf
  dsimp only
  split_ifs with hshort hlength
  · simp; omega
  · simp; omega
  · rw [DecodeResult.ok.injEq, eq_comm, and_iff_right (by omega)]

theorem byteAt_append_of_lt {d : List Byte} {i : Nat} (h : i < d.length) (x : List Byte) :
    byteAt (d ++ x) i = byteAt d i :=
  List.getD_append d x 0 i h

/-- Bytes appended to a whole datagram are in none of its fields (rule R183). -/
theorem packetOf_append {d : List Byte} (h : 9 + (be16 (byteAt d 5) (byteAt d 6)).toNat ≤ d.length) (x : List Byte) :
    packetOf (d ++ x) = { packetOf d with trailing := (packetOf d).trailing || !x.isEmpty } := by
  have hbyte : ∀ i < 9, byteAt (d ++ x) i = byteAt d i := fun i hi => byteAt_append_of_lt (by omega) x
  have hpayload : ((d ++ x).drop 9).take (be16 (byteAt d 5) (byteAt d 6)).toNat =
      (d.drop 9).take (be16 (byteAt d 5) (byteAt d 6)).toNat := by
    rw [List.drop_append_of_le_length (by omega), List.take_append_of_le_length (by rw [List.length_drop]; omega)]
  have htrailing : decide (9 + (be16 (byteAt d 5) (byteAt d 6)).toNat < d.length + x.length) =
      (decide (9 + (be16 (byteAt d 5) (byteAt d 6)).toNat < d.length) || !x.isEmpty) := by
    cases x with
    | nil => simp
    | cons b x =>
      have hlt : 9 + (be16 (byteAt d 5) (byteAt d 6)).toNat < d.length + (b :: x).length := by
        rw [List.length_cons]
        omega
      rw [decide_eq_true hlt]
      simp
  simp [packetOf, hbyte, hpayload, htrailing]

/-- Settles O42: `packetOf_append`. -/
theorem trailingBytesAreNotPartOfThePacket : Obligations.TrailingBytesAreNotPartOfThePacket := by
  intro d x pkt h
  obtain ⟨hlen, rfl⟩ := (decodeDatagram_eq_ok_iff d pkt).mp h
  refine (decodeDatagram_eq_ok_iff (d ++ x) _).mpr ⟨?_, (packetOf_append hlen x).symm⟩
  rw [byteAt_append_of_lt (by omega), byteAt_append_of_lt (by omega), List.length_append]
  omega

/-! ## The checksum 0xFFFF -/

/-- A sum reduced modulo 65535 is never all ones (rule R112 (d)). -/
theorem ne_allOnes_of_reduced {v : Half} (h : v.toNat ≤ 65534) : v ≠ 0xFFFF := by
  rintro rfl
  exact absurd h (by decide)

theorem checksum16_reduced (p : List Byte) : (checksum16 p).toNat ≤ 65534 := by
  rw [checksum16_toNat]
  omega

/-- The packer's header carries `P.SUM` in bytes 7 and 8 (rule R159). -/
theorem be16_hdrByte_checksum (tc : TypeCode) (p : Packer) : be16 (hdrByte tc p 7) (hdrByte tc p 8) = p.sum :=
  be16_bytes p.sum

/-- Settles O44: what a stored checksum is compared with, or taken from, is reduced. -/
theorem allOnesChecksumIsNeverValid : Obligations.AllOnesChecksumIsNeverValid := by
  refine ⟨fun d pkt _ hck => ?_, fun s hinv => ⟨fun hvalid => ?_, fun _ => ?_⟩⟩
  · rw [isValid, hck]
    exact decide_eq_false (ne_allOnes_of_reduced (checksum16_reduced pkt.payload))
  · obtain ⟨-, -, hsum⟩ := hinv.validMeansGood hvalid
    exact hsum ▸ ne_allOnes_of_reduced hinv.unpackerSumReduced
  · rw [be16_hdrByte_checksum]
    exact ne_allOnes_of_reduced hinv.packerSumReduced

end Sys2Proof.Machine
end

section
/-!
The checksum unit and `checksum16` (rules R130, R134, R136): the accumulate step over the naturals modulo 65535, and the
byte sum under the changes of rule R136. O35, O36 and O37 are settled here.
-/

namespace Sys2Proof.Machine

/-! ## The accumulate step -/

/-- One conditional subtraction reduces the sum of a reduced register and a byte (rule R134). -/
theorem ckStep_toNat_of_reduced {s : Half} (hs : s.toNat ≤ 65534) (b : Byte) :
    (ckStep s b).toNat = (s.toNat + b.toNat) % 65535 := by
  have hb := b.isLt
  rw [ckStep_toNat]
  split_ifs <;> omega

theorem ckStep_zero {s : Half} (hs : s.toNat ≤ 65534) : ckStep s 0 = s := by
  apply BitVec.eq_of_toNat_eq
  have hlt : s.toNat < 65535 := by omega
  simpa [ckStep_toNat_of_reduced hs] using hlt

/-- Accumulating from the checksum of a first part gives the checksum of the whole string (rule R134). -/
theorem foldl_ckStep_checksum16 (p q : List Byte) : q.foldl ckStep (checksum16 p) = checksum16 (p ++ q) := by
  induction q generalizing p with
  | nil => rw [List.append_nil, List.foldl_nil]
  | cons b q ih => rw [List.foldl_cons, ← checksum16_append_singleton, ih, List.append_assoc, List.singleton_append]

/-- Settles O35: the step by `ckStep_toNat_of_reduced`, the fold from the checksum of the empty string. -/
theorem ckStepAddsModulo : Obligations.CkStepAddsModulo :=
  ⟨fun s b hs => ⟨ckStep_toNat_of_reduced hs b, ckStep_le s b hs⟩, checksum16_append_singleton, checksum16_nil,
    foldl_ckStep_checksum16 [], by decide, by decide, by decide, by decide, fun _ => ckStep_zero⟩

/-! ## The reduced sum -/

theorem byteSum_eq_sum_map_toNat (p : List Byte) : byteSum p = (p.map BitVec.toNat).sum := by
  induction p with
  | nil => rfl
  | cons b p ih => rw [byteSum_cons, ih, List.map_cons, List.sum_cons]

/-- Two strings have the same checksum when their sums agree modulo 65535 (rule R130). -/
theorem checksum16_eq_iff (p q : List Byte) : checksum16 p = checksum16 q ↔ byteSum p % 65535 = byteSum q % 65535 := by
  rw [← BitVec.toNat_inj, checksum16_toNat, checksum16_toNat]

theorem checksum16_eq_zero_iff (p : List Byte) : checksum16 p = 0 ↔ byteSum p % 65535 = 0 :=
  checksum16_eq_iff p []

/-- 257 bytes of `0xFF` sum to 65535 itself (rule R132). -/
theorem checksum16_replicate_257_allOnes : checksum16 (List.replicate 257 0xFF#8) = 0 := by
  rw [checksum16_eq_zero_iff, byteSum_eq_sum_map_toNat, List.map_replicate, List.sum_replicate]
  rfl

/-- Settles O36: `checksum16_toNat` over the mapped sum. -/
theorem checksumIsTheReducedSum : Obligations.ChecksumIsTheReducedSum := by
  intro p
  have hreduced := checksum16_reduced p
  rw [← byteSum_eq_sum_map_toNat]
  exact ⟨checksum16_toNat p, hreduced, ne_allOnes_of_reduced hreduced, (checksum16_eq_zero_iff p).mpr,
    checksum16_replicate_257_allOnes⟩

/-! ## Rule R136 -/

theorem checksum16_append_toNat (p q : List Byte) :
    (checksum16 (p ++ q)).toNat = ((checksum16 p).toNat + (checksum16 q).toNat) % 65535 := by
  rw [checksum16_toNat, checksum16_toNat, checksum16_toNat, byteSum_append, Nat.add_mod]

theorem checksum16_perm {p q : List Byte} (h : p.Perm q) : checksum16 p = checksum16 q := by
  rw [checksum16_eq_iff, byteSum_eq_sum_map_toNat, byteSum_eq_sum_map_toNat, (h.map BitVec.toNat).sum_eq]

theorem checksum16_zero_byte (p q : List Byte) : checksum16 (p ++ 0 :: q) = checksum16 (p ++ q) := by
  simp [checksum16_eq_iff]

theorem checksum16_change_byte (p q : List Byte) (a b : Byte) :
    ((checksum16 (p ++ b :: q)).toNat : Int) % 65535 =
      ((checksum16 (p ++ a :: q)).toNat + ((b.toNat : Int) - a.toNat)) % 65535 := by
  rw [checksum16_toNat, checksum16_toNat]
  simp only [byteSum_append, byteSum_cons]
  omega

/-- Two bytes differ by less than the modulus, so no change of one byte is a multiple of it. -/
theorem checksum16_change_byte_ne (p q : List Byte) {a b : Byte} (hab : a ≠ b) :
    checksum16 (p ++ a :: q) ≠ checksum16 (p ++ b :: q) := by
  have ha := a.isLt
  have hb := b.isLt
  have hne : a.toNat ≠ b.toNat := fun h => hab (BitVec.eq_of_toNat_eq h)
  rw [Ne, checksum16_eq_iff]
  simp only [byteSum_append, byteSum_cons]
  omega

/-- Settles O37: each law is one about the byte sum. -/
theorem checksumLaws : Obligations.ChecksumLaws :=
  ⟨checksum16_append_toNat, fun _ _ => checksum16_perm, checksum16_zero_byte,
    fun p q a b => ⟨checksum16_change_byte p q a b, checksum16_change_byte_ne p q⟩⟩

end Sys2Proof.Machine
end

section
/-!
Datagrams as their five fields laid out (rules R150, R180): what decodes is an `encodeFields`, and decodes to its fields.
Overwriting bytes overwrites fields, so the changes of rules R141 and R142 are changes of one field. O43 and O45 are
settled here.
-/

namespace Sys2Proof.Machine

/-! ## A datagram and its fields -/

theorem bytesBe16_be16 (b0 b1 : Byte) : bytesBe16 (be16 b0 b1) = [b0, b1] := by
  rw [bytesBe16, be16, BitVec.extractLsb'_append_eq_left, BitVec.extractLsb'_append_eq_right]

theorem bytesBe32_be32 (b0 b1 b2 b3 : Byte) : bytesBe32 (be32 b0 b1 b2 b3) = [b0, b1, b2, b3] := by
  have h0 : (b0 ++ b1 ++ b2 ++ b3).extractLsb' 24 8 = b0 := by
    rw [BitVec.extractLsb'_append_eq_of_le (by omega), BitVec.extractLsb'_append_eq_of_le (by omega),
      BitVec.extractLsb'_append_eq_left]
  have h1 : (b0 ++ b1 ++ b2 ++ b3).extractLsb' 16 8 = b1 := by
    rw [BitVec.extractLsb'_append_eq_of_le (by omega), BitVec.extractLsb'_append_eq_of_le (by omega),
      BitVec.extractLsb'_append_eq_right]
  have h2 : (b0 ++ b1 ++ b2 ++ b3).extractLsb' 8 8 = b2 := by
    rw [BitVec.extractLsb'_append_eq_of_le (by omega), BitVec.extractLsb'_append_eq_right]
  rw [bytesBe32, be32, h0, h1, h2, BitVec.extractLsb'_append_eq_right]

/-- The decoded packet whose fields are these, with `p` every byte after the header (rule R180). -/
def decodedOf (t : Byte) (q : SeqBits) (l c : Half) (p : List Byte) : DecodedPacket :=
  { typeRaw := t, seq := sint32 q, payloadLength := l, checksum := c, payload := p.take l.toNat,
    trailing := decide (l.toNat < p.length) }

/-- The bytes after the header stand after the nine header bytes (rule R150). -/
theorem encodeFields_eq_header_append (t : Byte) (q : SeqBits) (l c : Half) (p : List Byte) :
    encodeFields t q l c p = encodeFields t q l c [] ++ p := by
  rw [encodeFields, encodeFields, List.append_nil]

theorem encodeFields_nil_length (t : Byte) (q : SeqBits) (l c : Half) : (encodeFields t q l c []).length = 9 := rfl

theorem encodeFields_length (t : Byte) (q : SeqBits) (l c : Half) (p : List Byte) :
    (encodeFields t q l c p).length = 9 + p.length := by
  rw [encodeFields_eq_header_append, List.length_append, encodeFields_nil_length]

theorem be32_byteAt_encodeFields_seq (t : Byte) (q : SeqBits) (l c : Half) (p : List Byte) :
    be32 (byteAt (encodeFields t q l c p) 1) (byteAt (encodeFields t q l c p) 2) (byteAt (encodeFields t q l c p) 3)
      (byteAt (encodeFields t q l c p) 4) = q :=
  be32_bytes q

theorem be16_byteAt_encodeFields_len (t : Byte) (q : SeqBits) (l c : Half) (p : List Byte) :
    be16 (byteAt (encodeFields t q l c p) 5) (byteAt (encodeFields t q l c p) 6) = l :=
  be16_bytes l

theorem be16_byteAt_encodeFields_checksum (t : Byte) (q : SeqBits) (l c : Half) (p : List Byte) :
    be16 (byteAt (encodeFields t q l c p) 7) (byteAt (encodeFields t q l c p) 8) = c :=
  be16_bytes c

/-- Nine bytes and more are five fields laid out (rule R180). -/
theorem eq_encodeFields_of_length {d : List Byte} (h : 9 ≤ d.length) :
    d = encodeFields (byteAt d 0) (be32 (byteAt d 1) (byteAt d 2) (byteAt d 3) (byteAt d 4))
      (be16 (byteAt d 5) (byteAt d 6)) (be16 (byteAt d 7) (byteAt d 8)) (d.drop 9) := by
  match d, h with
  | _ :: _ :: _ :: _ :: _ :: _ :: _ :: _ :: _ :: _, _ =>
    simp [encodeFields, bytesBe32_be32, bytesBe16_be16, byteAt]

theorem packetOf_encodeFields (t : Byte) (q : SeqBits) (l c : Half) (p : List Byte) :
    packetOf (encodeFields t q l c p) = decodedOf t q l c p := by
  simp only [packetOf, be32_byteAt_encodeFields_seq, be16_byteAt_encodeFields_len, be16_byteAt_encodeFields_checksum,
    encodeFields_length, Nat.add_lt_add_iff_left]
  rfl

theorem decodeDatagram_encodeFields {l : Half} {p : List Byte} (h : l.toNat ≤ p.length) (t : Byte) (q : SeqBits)
    (c : Half) : decodeDatagram (encodeFields t q l c p) = .ok (decodedOf t q l c p) := by
  refine (decodeDatagram_eq_ok_iff _ _).mpr ⟨?_, (packetOf_encodeFields t q l c p).symm⟩
  rw [be16_byteAt_encodeFields_len, encodeFields_length]
  exact Nat.add_le_add_left h 9

theorem exists_fields_of_decodeDatagram {d : List Byte} {pkt : DecodedPacket} (h : decodeDatagram d = .ok pkt) :
    ∃ t q l c p, d = encodeFields t q l c p ∧ l.toNat ≤ p.length ∧ pkt = decodedOf t q l c p := by
  obtain ⟨hlen, rfl⟩ := (decodeDatagram_eq_ok_iff d pkt).mp h
  refine ⟨_, _, _, _, _, eq_encodeFields_of_length (by omega), by rw [List.length_drop]; omega, ?_⟩
  rw [← packetOf_encodeFields, ← eq_encodeFields_of_length (by omega)]

/-! ## Overwritten bytes -/

theorem encodeFields_set_type_seq (t : Byte) (q : SeqBits) (l c : Half) (p : List Byte) (t' s1 s2 s3 s4 : Byte) :
    (((((encodeFields t q l c p).set 0 t').set 1 s1).set 2 s2).set 3 s3).set 4 s4 =
      encodeFields t' (be32 s1 s2 s3 s4) l c p := by
  rw [encodeFields, encodeFields, bytesBe32_be32]
  rfl

theorem encodeFields_set_checksum (t : Byte) (q : SeqBits) (l c : Half) (p : List Byte) (x y : Byte) :
    ((encodeFields t q l c p).set 7 x).set 8 y = encodeFields t q l (be16 x y) p := by
  rw [encodeFields, encodeFields, bytesBe16_be16]
  rfl

/-- Past the header a byte of the datagram is one of `p`. -/
theorem encodeFields_set_payload (t : Byte) (q : SeqBits) (l c : Half) (p : List Byte) (j : Nat) (b : Byte) :
    (encodeFields t q l c p).set (9 + j) b = encodeFields t q l c (p.set j b) := by
  have hheader := encodeFields_nil_length t q l c
  rw [encodeFields_eq_header_append, List.set_append_right _ _ (by omega), hheader, Nat.add_sub_cancel_left,
    ← encodeFields_eq_header_append]

theorem byteAt_encodeFields_payload (t : Byte) (q : SeqBits) (l c : Half) (p : List Byte) (j : Nat) :
    byteAt (encodeFields t q l c p) (9 + j) = byteAt p j := by
  have hheader := encodeFields_nil_length t q l c
  rw [byteAt, encodeFields_eq_header_append, List.getD_append_right _ _ _ _ (by omega), hheader, Nat.add_sub_cancel_left,
    byteAt]

/-- A changed byte of a string changes its checksum (rule R136 (d)). -/
theorem checksum16_set_ne {p : List Byte} {j : Nat} {b : Byte} (hj : j < p.length) (hb : b ≠ byteAt p j) :
    checksum16 (p.set j b) ≠ checksum16 p := by
  have hsplit : p.take j ++ byteAt p j :: p.drop (j + 1) = p := by
    rw [byteAt, List.getD_eq_getElem _ _ hj, ← List.drop_eq_getElem_cons hj, List.take_append_drop]
  have hne := checksum16_change_byte_ne (p.take j) (p.drop (j + 1)) hb
  rw [hsplit] at hne
  rwa [List.set_eq_take_append_cons_drop, if_pos hj]

theorem byteAt_take_of_lt {n j : Nat} (h : j < n) (p : List Byte) : byteAt (p.take n) j = byteAt p j := by
  simp [byteAt, List.getD_eq_getElem?_getD, h]

theorem isValid_decodedOf (t : Byte) (q : SeqBits) (l c : Half) (p : List Byte) :
    isValid (decodedOf t q l c p) = true ↔ checksum16 (p.take l.toNat) = c :=
  decide_eq_true_iff

/-- Settles O43: a changed payload byte changes the checksum computed, a changed checksum field the one it is held to. -/
theorem singleCorruptionIsDetected : Obligations.SingleCorruptionIsDetected := by
  intro d pkt hd hvalid
  obtain ⟨t, q, l, c, p, rfl, hlen, rfl⟩ := exists_fields_of_decodeDatagram hd
  rw [isValid_decodedOf] at hvalid
  refine ⟨fun i b h9 hi hb => ?_, fun x y hxy => ?_⟩
  · obtain ⟨j, rfl⟩ := Nat.exists_eq_add_of_le h9
    have hj : j < l.toNat := Nat.lt_of_add_lt_add_left hi
    rw [byteAt_encodeFields_payload, ← byteAt_take_of_lt hj] at hb
    rw [encodeFields_set_payload]
    refine ⟨_, decodeDatagram_encodeFields (by rw [List.length_set]; exact hlen) t q c, ?_⟩
    rw [← Bool.not_eq_true, isValid_decodedOf, List.take_set, ← hvalid]
    exact checksum16_set_ne (by rw [List.length_take]; omega) hb
  · rw [be16_byteAt_encodeFields_checksum] at hxy
    rw [encodeFields_set_checksum]
    refine ⟨_, decodeDatagram_encodeFields hlen t q _, ?_⟩
    rw [← Bool.not_eq_true, isValid_decodedOf, hvalid]
    exact hxy.symm

/-- Settles O45: the length, the checksum and the payload stay, and `is_valid` reads only these. -/
theorem typeAndSeqAreNotProtected : Obligations.TypeAndSeqAreNotProtected := by
  intro d pkt t' s1 s2 s3 s4 hd
  obtain ⟨t, q, l, c, p, rfl, hlen, rfl⟩ := exists_fields_of_decodeDatagram hd
  rw [encodeFields_set_type_seq]
  exact ⟨_, decodeDatagram_encodeFields hlen t' _ c, rfl, rfl, rfl, rfl, rfl⟩

end Sys2Proof.Machine
end

section
/-!
The packer from `TX_CMD` to the end of `LOAD` (rules R155, R156): what it holds of a payload that fits, however the payload
is cut into beats, and the datagram `pack` makes of it (rule R140). O47 is settled here.
-/

namespace Sys2Proof.Machine

/-- The packer has taken the command `(k, q)` and after it the payload bytes `p`, all of which fitted. -/
structure Packer.Holds (pk : Packer) (k : PacketType) (q : SeqBits) (p : List Byte) : Prop where
  phase : pk.phase = .load
  type : pk.type = k
  seq : pk.seq = q
  ovf : pk.ovf = false
  sum : pk.sum = checksum16 p
  payload : txPayload pk.txbuf pk.len.toNat = p

theorem Packer.Holds.len {pk : Packer} {k : PacketType} {q : SeqBits} {p : List Byte} (h : pk.Holds k q p) :
    pk.len.toNat = p.length := by
  rw [← h.payload, txPayload_length]

theorem Packer.holds_command (pk : Packer) (k : PacketType) (q : SeqBits) : (pk.command k q).Holds k q [] :=
  ⟨rfl, rfl, rfl, rfl, rfl, rfl⟩

/-- A byte that fits is appended to the payload and to its sum (rule R156). -/
theorem Packer.Holds.takeByte {pk : Packer} {k : PacketType} {q : SeqBits} {p : List Byte} (h : pk.Holds k q p)
    (hp : p.length < 65535) (b : Byte) : (pk.takeByte b).Holds k q (p ++ [b]) := by
  have hroom : pk.len.toNat ≠ 65535 := by rw [h.len]; omega
  rw [Packer.takeByte_of_not_full hroom]
  refine ⟨h.phase, h.type, h.seq, h.ovf, ?_, ?_⟩
  · simp only [h.sum, checksum16_append_singleton]
  · simp only [len_succ_toNat hroom, txPayload_write, h.payload]

/-- Beats that are not last append what they deliver. -/
theorem Packer.Holds.foldl_plBeat (bs : List (Bool × Byte)) {pk : Packer} {k : PacketType} {q : SeqBits} {p : List Byte}
    (h : pk.Holds k q p) (hp : (p ++ delivered bs).length ≤ 65535) :
    (bs.foldl (fun pk x => pk.plBeat x.1 false x.2) pk).Holds k q (p ++ delivered bs) := by
  induction bs generalizing pk p with
  | nil => simpa [delivered] using h
  | cons x bs ih =>
    obtain ⟨keep, b⟩ := x
    cases keep with
    | false => exact ih h hp
    | true =>
      have hcons : p ++ delivered ((true, b) :: bs) = (p ++ [b]) ++ delivered bs := by simp [delivered]
      rw [hcons] at hp ⊢
      have hroom : p.length < 65535 := by
        simp only [List.length_append, List.length_singleton] at hp
        omega
      exact ih (h.takeByte hroom b) hp

/-- A last beat takes its byte and then ends the payload (rule R156). -/
theorem Packer.plBeat_last (pk : Packer) (keep : Bool) (b : Byte) :
    pk.plBeat keep true b = (pk.plBeat keep false b).endPayload := by
  cases keep <;> rfl

theorem Packer.endPayload_of_not_ovf {pk : Packer} (h : pk.ovf = false) : pk.endPayload = pk.enterEmit := by
  simp [Packer.endPayload, h]

/-- A command and the payload beats of at most 65535 bytes end in `EMIT` with the command and the payload held. -/
theorem execAll_txCmd_payload {s : State} (hidle : s.p.phase = .idle) (k : PacketType) (q : SeqBits)
    (bs : List (Bool × Byte)) (final : Bool × Byte) (hp : (delivered (bs ++ [final])).length ≤ 65535) :
    ∃ pk : Packer, pk.Holds k q (delivered (bs ++ [final])) ∧
      execAll (.txCmd k q :: txPayloadBeats bs final) s = .next (s.setPacker pk.enterEmit) := by
  have hholds := Packer.Holds.foldl_plBeat (bs ++ [final]) (s.p.holds_command k q) hp
  refine ⟨_, hholds, ?_⟩
  have hcmd : exec (.txCmd k q) s = .next (s.setPacker (s.p.command k q)) := if_pos hidle
  rw [execAll_cons_of_next hcmd, execAll_payload bs final _ rfl, setPacker_setPacker, State.setPacker_p,
    Packer.plBeat_last]
  rw [List.foldl_append, List.foldl_cons, List.foldl_nil] at hholds ⊢
  rw [Packer.endPayload_of_not_ovf hholds.ovf]

/-- The datagram that `pack` makes decodes to the fields it was made of (rules R152, R180). -/
theorem decodeDatagram_pack (tc : TypeCode) (k : PacketType) (n : Int) (p : List Byte) :
    decodeDatagram (pack tc k n p) =
      .ok (decodedOf (tc.code k) (twos32 n) (BitVec.ofNat 16 p.length) (checksum16 p) p) := by
  have hlen : (BitVec.ofNat 16 p.length).toNat ≤ p.length := by
    rw [BitVec.toNat_ofNat]
    exact Nat.mod_le _ _
  exact decodeDatagram_encodeFields hlen _ _ _

/-- Settles O47: the packer holds the payload and its checksum, and `pack` writes the same checksum. -/
theorem emittedDatagramIsValid : Obligations.EmittedDatagramIsValid := by
  intro s k q bs final hidle p hp
  obtain ⟨pk, hholds, hexec⟩ := execAll_txCmd_payload hidle k q bs final hp
  have hwhole : p.take (BitVec.ofNat 16 p.length).toNat = p := by
    rw [BitVec.toNat_ofNat, Nat.mod_eq_of_lt (by omega), List.take_length]
  exact ⟨_, _, hexec, rfl, hholds.len, hholds.sum, hholds.payload, decodeDatagram_pack ..,
    (isValid_decodedOf ..).mpr (congrArg checksum16 hwhole), hwhole⟩

end Sys2Proof.Machine
end

section
/-!
The function level of the packer (rules R150, R151, R166): the layout of `encode_fields`, and `decode` after `encode`. O40
and O38 are settled here.
-/

namespace Sys2Proof.Machine

/-- A number of 32 signed bits is the one its two's complement bits stand for (rule R104). -/
theorem sint32_twos32 {n : Int} (hlo : -2 ^ 31 ≤ n) (hhi : n < 2 ^ 31) : sint32 (twos32 n) = n := by
  rw [sint32_eq_toInt, twos32, BitVec.toInt_ofInt_eq_self (by decide) hlo hhi]

/-- Settles O40: the fields laid out by `encode` are the fields `decode` reads, and a well-formed packet's payload is every
byte after its header. -/
theorem decodeOfEncodeIsThePacket : Obligations.DecodeOfEncodeIsThePacket := by
  intro tc pkt htc ⟨hlo, hhi, _, hlen⟩
  have hwhole : pkt.payload.take pkt.payloadLength.toNat = pkt.payload := by rw [hlen, List.take_length]
  have htrailing : decide (pkt.payloadLength.toNat < pkt.payload.length) = false := by simp [hlen]
  refine ⟨_, decodeDatagram_encodeFields hlen.le _ _ _, rfl, typeOf?_code tc htc pkt.type, sint32_twos32 hlo hhi, rfl, rfl,
    hwhole, htrailing, ?_⟩
  rw [isValid_decodedOf, hwhole, eq_comm]

/-- Settles O38: the layout is the definition's, the length `encodeFields_length`. -/
theorem encodedFieldsLayout : Obligations.EncodedFieldsLayout :=
  fun t q l c p => ⟨rfl, encodeFields_length t q l c p⟩

end Sys2Proof.Machine
end

section
/-!
The packer's events one by one (rules R153 to R161): a payload beat as one equation over all registers, an output beat as
the byte at `P.CNT` of the datagram, and what `ERR` and the phases allow. O14, O15, O16, O17, O18, O19, O21 and O22 are
settled here.
-/

namespace Sys2Proof.Machine

/-! ## Commands and payload beats -/

/-- In the phase that enables it an operation updates its agent (rule R154). -/
theorem onPacker_of_phase {s : State} {φ : PackerPhase} (h : s.p.phase = φ) (f : Packer → Packer) :
    s.onPacker φ f = .next (s.setPacker (f s.p)) :=
  if_pos h

/-- Settles O14: `TX_CMD` in `IDLE` puts the commanded packer in place. -/
theorem txCmdStartsAPacket : Obligations.TxCmdStartsAPacket := by
  intro s k q hidle
  rw [exec_txCmd, onPacker_of_phase hidle]
  rfl

/-- The end of a payload writes the phase, and the count on the way to `EMIT` (rule R156). -/
theorem Packer.endPayload_eq (p : Packer) :
    p.endPayload = { p with phase := if p.ovf then .err else .emit, cnt := if !p.ovf then 0 else p.cnt } := by
  cases hovf : p.ovf <;> simp [Packer.endPayload, Packer.enterErr, Packer.enterEmit, hovf]

/-- A beat's byte is stored when it is kept and there is room; kept without room it sets `P.OVF` (rules R156, R157). -/
theorem Packer.plBeat_not_last_eq (p : Packer) (keep : Bool) (b : Byte) :
    p.plBeat keep false b =
      { p with
        txbuf := if keep && !payloadFull p.len then p.txbuf.write p.len.toNat b else p.txbuf
        len := if keep && !payloadFull p.len then p.len + 1 else p.len
        sum := if keep && !payloadFull p.len then ckStep p.sum b else p.sum
        ovf := p.ovf || (keep && payloadFull p.len) } := by
  cases keep with
  | false => simp [Packer.plBeat]
  | true => cases hfull : payloadFull p.len <;> simp [Packer.plBeat, Packer.takeByte, hfull, txStoreIndex]

/-- Settles O15: the beat as its registers, last or not. -/
theorem txPlBeatStoresAndEndsThePayload : Obligations.TxPlBeatStoresAndEndsThePayload := by
  intro s keep last b hload full stores ovf'
  have hread : ∀ a, readTxbuf (if stores then s.p.txbuf.write s.p.len.toNat b else s.p.txbuf) a =
      if stores = true ∧ a = txStoreIndex s.p then b else readTxbuf s.p.txbuf a := fun a => by
    cases stores
    · simp
    · simp [readTxbuf_write, txStoreIndex]
  rw [exec_txPlBeat, onPacker_of_phase hload]
  refine ⟨_, rfl, rfl, ?_⟩
  cases last with
  | false =>
    rw [Packer.plBeat_not_last_eq]
    exact ⟨rfl, rfl, rfl, rfl, rfl, hread, rfl, hload, rfl⟩
  | true =>
    rw [Packer.plBeat_last, Packer.plBeat_not_last_eq, Packer.endPayload_eq]
    exact ⟨rfl, rfl, rfl, rfl, rfl, hread, rfl, rfl, rfl⟩

/-- All the beats of a payload in `LOAD`, the last of them as the end of what they delivered. -/
theorem execAll_payload_endPayload {s : State} (hload : s.p.phase = .load) (bs : List (Bool × Byte))
    (final : Bool × Byte) :
    execAll (txPayloadBeats bs final) s =
      .next (s.setPacker ((bs ++ [final]).foldl (fun pk x => pk.plBeat x.1 false x.2) s.p).endPayload) := by
  rw [execAll_payload bs final s hload, Packer.plBeat_last, List.foldl_append, List.foldl_cons, List.foldl_nil]

/-- At a full packer any number of beats set `P.OVF` when they deliver a byte, and do nothing else (rule R157). -/
theorem Packer.foldl_plBeat_full (bs : List (Bool × Byte)) {p : Packer} (hfull : p.len.toNat = 65535) :
    bs.foldl (fun pk x => pk.plBeat x.1 false x.2) p = { p with ovf := p.ovf || !(delivered bs).isEmpty } := by
  induction bs generalizing p with
  | nil => simp [delivered]
  | cons x bs ih =>
    obtain ⟨keep, b⟩ := x
    rw [List.foldl_cons, Packer.plBeat_full p keep b hfull, ih (p := { p with ovf := p.ovf || keep }) hfull]
    cases keep <;> simp [delivered]

/-- Settles O16: the payload ends with `P.OVF` at 1. -/
theorem overflowingPayloadIsRefused : Obligations.OverflowingPayloadIsRefused := by
  intro s bs final hload hfull hbs
  have hovf : (s.p.ovf || !(delivered (bs ++ [final])).isEmpty) = true := by simp [hbs]
  rw [execAll_payload_endPayload hload, Packer.foldl_plBeat_full _ hfull, hovf]
  exact ⟨_, rfl, rfl, rfl⟩

/-! ## Which events a phase enables -/

/-- A packer event other than the acknowledge waits in `ERR` (rules R154, R158). -/
theorem packer_eq_of_err {i : Instr} {s t : State} (herr : s.p.phase = .err) (hack : i ≠ .txErrAck) (hreset : i ≠ .reset)
    (ht : exec i s = .next t) : t.p = s.p := by
  cases i with
  | hdrData | hdrMetadata | hdrAck | hdrFin | hdrUnknown | rxBeat | rxRead | rxRelease =>
    exact (samePacker_of_exec rfl ht).packer
  | txCmd | txPlBeat | txOutBeat =>
    rw [exec_of_not_eventEnabled (by simp [eventEnabled, herr])] at ht
    cases ht
    rfl
  | txErrAck => exact absurd rfl hack
  | reset => exact absurd rfl hreset

/-- Settles O17: the acknowledge by its update, everything else by `packer_eq_of_err`. -/
theorem txErrAckReturnsToIdle : Obligations.TxErrAckReturnsToIdle := by
  intro s herr
  have hack : exec .txErrAck s = .next (s.setPacker s.p.leaveErr) := onPacker_of_phase herr _
  refine ⟨hack, by simp [txErr, herr], by simp [txCmdReady, herr], by simp [txPlReady, herr], by simp [txOutValid, herr],
    fun i hi hreset t => packer_eq_of_err herr hi hreset, fun t ht => ?_⟩
  cases hack.symm.trans ht
  rfl

/-- The packer events that a phase takes (rule R154). -/
def PackerPhase.Takes : PackerPhase → Instr → Prop
  | .idle, i => ∃ k q, i = .txCmd k q
  | .load, i => ∃ keep last b, i = .txPlBeat keep last b
  | .emit, i => i = .txOutBeat
  | .err, i => i = .txErrAck

theorem phase_takes_of_enabled {s : State} {i : Instr} (hi : isPackerEvent i = true) (he : eventEnabled s i = true) :
    s.p.phase.Takes i := by
  cases i with
  | hdrData | hdrMetadata | hdrAck | hdrFin | hdrUnknown | rxBeat | rxRead | rxRelease | reset => cases hi
  | txCmd k q => rw [of_decide_eq_true he]; exact ⟨k, q, rfl⟩
  | txPlBeat keep last b => rw [of_decide_eq_true he]; exact ⟨keep, last, b, rfl⟩
  | txOutBeat => rw [of_decide_eq_true he]; rfl
  | txErrAck => rw [of_decide_eq_true he]; rfl

/-- Two packer events enabled in one state are of the same kind: its phase takes one kind only. -/
theorem same_kind_of_enabled {s : State} {i j : Instr} (hi : isPackerEvent i = true) (hj : isPackerEvent j = true)
    (hei : eventEnabled s i = true) (hej : eventEnabled s j = true) :
    (∃ k q k' q', i = .txCmd k q ∧ j = .txCmd k' q') ∨
      (∃ a b c a' b' c', i = .txPlBeat a b c ∧ j = .txPlBeat a' b' c') ∨
      (i = .txOutBeat ∧ j = .txOutBeat) ∨ (i = .txErrAck ∧ j = .txErrAck) := by
  have hti := phase_takes_of_enabled hi hei
  have htj := phase_takes_of_enabled hj hej
  cases hphase : s.p.phase <;> rw [hphase] at hti htj
  case idle =>
    obtain ⟨⟨k, q, hi⟩, k', q', hj⟩ := And.intro hti htj
    exact .inl ⟨k, q, k', q', hi, hj⟩
  case load =>
    obtain ⟨⟨a, b, c, hi⟩, a', b', c', hj⟩ := And.intro hti htj
    exact .inr (.inl ⟨a, b, c, a', b', c', hi, hj⟩)
  case emit => exact .inr (.inr (.inl ⟨hti, htj⟩))
  case err => exact .inr (.inr (.inr ⟨hti, htj⟩))

theorem exists_enabled_packer_event (s : State) : ∃ i, isPackerEvent i = true ∧ eventEnabled s i = true := by
  cases hphase : s.p.phase with
  | idle => exact ⟨.txCmd .data 0, rfl, decide_eq_true hphase⟩
  | load => exact ⟨.txPlBeat false false 0, rfl, decide_eq_true hphase⟩
  | emit => exact ⟨.txOutBeat, rfl, decide_eq_true hphase⟩
  | err => exact ⟨.txErrAck, rfl, decide_eq_true hphase⟩

/-- Settles O22: each event's phase is the one `eventEnabled` decides. -/
theorem eventsThatAreNotEnabledDoNotOccur : Obligations.EventsThatAreNotEnabledDoNotOccur := by
  intro s
  exact ⟨fun _ => exec_of_not_eventEnabled, fun _ _ => decide_eq_true_iff, fun _ _ _ => decide_eq_true_iff,
    decide_eq_true_iff, decide_eq_true_iff, fun _ _ _ => decide_eq_true_iff, decide_eq_true_iff, fun _ => rfl,
    fun hdone => by simp [rxInReady, hdone], fun _ _ => same_kind_of_enabled, exists_enabled_packer_event s⟩

/-! ## The transitions of `P.PHASE` -/

/-- A payload beat ends in `ERR` or `EMIT` when it is last, by the new `P.OVF` (rule R156). -/
theorem Packer.plBeat_phase_eq (p : Packer) (keep last : Bool) (b : Byte) :
    (p.plBeat keep last b).phase =
      if last then (if p.ovf || (keep && payloadFull p.len) then .err else .emit) else p.phase := by
  cases last with
  | false => exact p.plBeat_phase keep b
  | true =>
    rw [Packer.plBeat_last, Packer.endPayload_eq, Packer.plBeat_not_last_eq]
    rfl

theorem Packer.advance_phase (p : Packer) :
    p.advance.phase = if p.cnt.toNat = 8 + p.len.toNat then .idle else p.phase := by
  simp only [Packer.advance, txOutLast, decide_eq_true_eq]
  split_ifs <;> rfl

/-- Settles O21: an operation's update gives the phase of its row, and outside its phase it changes none. -/
theorem packerPhaseTransitions : Obligations.PackerPhaseTransitions := by
  intro i s t ht
  cases i with
  | hdrData | hdrMetadata | hdrAck | hdrFin | hdrUnknown | rxBeat | rxRead | rxRelease =>
    rw [(samePacker_of_exec rfl ht).packer]
    cases s.p.phase <;> rfl
  | txCmd k q =>
    obtain ⟨hφ, rfl⟩ | ⟨hφ, rfl⟩ := onPacker_cases (exec_txCmd k q s ▸ ht)
    · simp [hφ]
    · cases h : t.p.phase <;> simp_all
  | txPlBeat keep last b =>
    obtain ⟨hφ, rfl⟩ | ⟨hφ, rfl⟩ := onPacker_cases (exec_txPlBeat keep last b s ▸ ht)
    · simp [hφ, Packer.plBeat_phase_eq, payloadFull]
    · cases h : t.p.phase <;> simp_all
  | txErrAck =>
    obtain ⟨hφ, rfl⟩ | ⟨hφ, rfl⟩ := onPacker_cases (exec_txErrAck s ▸ ht)
    · simp [hφ]
    · cases h : t.p.phase <;> simp_all
  | txOutBeat =>
    obtain ⟨hφ, b, -, rfl⟩ | ⟨hφ, rfl⟩ := exec_txOutBeat_cases ht
    · simp [hφ, Packer.advance_phase]
    · cases h : t.p.phase <;> simp_all
  | reset =>
    cases ht
    cases s.p.phase <;> rfl

/-! ## Output beats -/

/-- The byte at offset `i` of the datagram in the packer (rules R159, R160). -/
def outByte (tc : TypeCode) (p : Packer) (i : Nat) : Byte :=
  if i ≤ 8 then hdrByte tc p i else readTxbuf p.txbuf (i - 9)

/-- Within the count bound of rule R53 (c) `tx_out_data` is the datagram's byte at `P.CNT`. -/
theorem txOutData?_eq_outByte {p : Packer} (hcnt : p.cnt.toNat ≤ 8 + p.len.toNat) (tc : TypeCode) :
    txOutData? tc p = some (outByte tc p p.cnt.toNat) := by
  have hlen := p.len.isLt
  by_cases hheader : p.cnt.toNat ≤ 8
  · simp [txOutData?, outByte, hheader]
  · rw [txOutData?_of_cell (by omega) (by unfold txLoadIndex Config.hdrLen; omega), outByte, if_neg hheader]
    rfl

/-- An output beat in `EMIT` within the count bound (rules R160, R161). -/
theorem exec_txOutBeat_of_emit {s : State} (hemit : s.p.phase = .emit) (hcnt : s.p.cnt.toNat ≤ 8 + s.p.len.toNat) :
    exec .txOutBeat s = .next ((s.emitBeat
      { last := txOutLast s.p, data := outByte s.typeCode s.p s.p.cnt.toNat }).setPacker s.p.advance) := by
  simp only [exec, execTxOutBeat, if_pos hemit, txOutData?_eq_outByte hcnt]

theorem Packer.advance_of_last {p : Packer} (h : p.cnt.toNat = 8 + p.len.toNat) :
    p.advance = { p with phase := .idle } := by
  simp [Packer.advance, txOutLast, h]

theorem Packer.advance_of_not_last {p : Packer} (h : p.cnt.toNat ≠ 8 + p.len.toNat) :
    p.advance = { p with cnt := p.cnt + 1 } := by
  simp [Packer.advance, txOutLast, h]

/-- Before the last beat the count goes up without wrapping: it has 17 bits (rule R35). -/
theorem cnt_succ_toNat {p : Packer} (h : p.cnt.toNat < 8 + p.len.toNat) : (p.cnt + 1).toNat = p.cnt.toNat + 1 := by
  have hlen := p.len.isLt
  rw [BitVec.toNat_add_of_lt (by simp; omega)]
  rfl

/-- Settles O19: the beat by `exec_txOutBeat_of_emit`, the packer after it by whether it was the last. -/
theorem txOutBeatEmitsTheNextByte : Obligations.TxOutBeatEmitsTheNextByte := by
  intro s hemit hcnt
  have hbeat : txOutBeat? s =
      some { last := txOutLast s.p, data := outByte s.typeCode s.p s.p.cnt.toNat } := by
    rw [txOutBeat?, if_pos hemit, txOutData?_eq_outByte hcnt, Option.map_some]
  refine ⟨_, exec_txOutBeat_of_emit hemit hcnt, hbeat, by rw [hbeat]; rfl, ?_, fun hlt => ?_⟩
  · split_ifs with hlast
    · exact Packer.advance_of_last hlast
    · exact Packer.advance_of_not_last hlast
  · rw [State.setPacker_p, Packer.advance_of_not_last hlt.ne]
    exact cnt_succ_toNat hlt

/-- Settles O18: offset by offset, as rule R159 lists them. -/
theorem headerBytesOfThePacker : Obligations.HeaderBytesOfThePacker :=
  fun _ _ => rfl

end Sys2Proof.Machine
end

section
/-!
The packer as a whole (rules R163, R165): its output beats emit the datagram it holds, byte by byte, whatever stood in the
registers before the command; a payload of more than 65535 bytes ends in `ERR` and emits nothing. O46 and O51 are settled
here.
-/

namespace Sys2Proof.Machine

/-! ## The datagram in the packer -/

/-- The bytes the packer emits from `EMIT`, all of them in order (rule R160). -/
def Packer.datagram (tc : TypeCode) (p : Packer) : List Byte := (List.range (9 + p.len.toNat)).map (outByte tc p)

/-- The header bytes of rule R159 and the payload in TXBUF are `encode_fields` of the packer's registers. -/
theorem Packer.datagram_eq_encodeFields (tc : TypeCode) (p : Packer) :
    p.datagram tc = encodeFields (tc.code p.type) p.seq p.len p.sum (txPayload p.txbuf p.len.toNat) := by
  have hheader : (List.range 9).map (outByte tc p) = encodeFields (tc.code p.type) p.seq p.len p.sum [] := rfl
  have hpayload : (List.range p.len.toNat).map (outByte tc p ∘ (9 + ·)) = txPayload p.txbuf p.len.toNat := by
    refine List.map_congr_left fun i _ => ?_
    rw [Function.comp_apply, outByte, if_neg (by omega), Nat.add_sub_cancel_left]
  rw [Packer.datagram, List.range_add, List.map_append, List.map_map, hheader, hpayload, ← encodeFields_eq_header_append]

/-- The datagram is the same all through its emission. -/
theorem Packer.datagram_set_cnt (tc : TypeCode) (p : Packer) (c : Count) :
    Packer.datagram tc { p with cnt := c } = p.datagram tc := rfl

theorem Packer.datagram_drop {p : Packer} {i : Nat} (h : i ≤ 8 + p.len.toNat) (tc : TypeCode) :
    (p.datagram tc).drop i = outByte tc p i :: (p.datagram tc).drop (i + 1) := by
  have hi : i < (p.datagram tc).length := by rw [Packer.datagram, List.length_map, List.length_range]; omega
  rw [List.drop_eq_getElem_cons hi]
  simp [Packer.datagram]

theorem Packer.datagram_drop_eq_nil_iff (tc : TypeCode) (p : Packer) (i : Nat) :
    (p.datagram tc).drop i = [] ↔ 9 + p.len.toNat ≤ i := by
  simp [Packer.datagram]

/-- The datagram of a payload held in `LOAD` is the one `pack` makes of it (rules R152, R165). -/
theorem Packer.Holds.datagram_enterEmit {pk : Packer} {k : PacketType} {q : SeqBits} {p : List Byte}
    (h : pk.Holds k q p) (tc : TypeCode) : pk.enterEmit.datagram tc = pack tc k (sint32 q) p := by
  have hlen : BitVec.ofNat 16 p.length = pk.len := by rw [← h.len]; simp
  rw [Packer.datagram_eq_encodeFields, pack, encodePacket]
  simp only [Packer.enterEmit_type, Packer.enterEmit_seq, Packer.enterEmit_len, Packer.enterEmit_sum,
    Packer.enterEmit_txbuf, h.type, h.seq, h.sum, h.payload, hlen, twos32_sint32]

theorem pack_length (tc : TypeCode) (k : PacketType) (n : Int) (p : List Byte) :
    (pack tc k n p).length = 9 + p.length := encodeFields_length ..

/-! ## Runs of output beats -/

/-- `last` is on the beat with no byte after it. -/
theorem outBeats_cons (b : Byte) (d : List Byte) :
    outBeats (b :: d) = { last := d.isEmpty, data := b } :: outBeats d := by
  cases d <;> rfl

theorem outBeats_length (d : List Byte) : (outBeats d).length = d.length := by
  induction d with
  | nil => rfl
  | cons b d ih => rw [outBeats_cons, List.length_cons, ih, List.length_cons]

theorem execAll_append_of_next {is : List Instr} {s t : State} (h : execAll is s = .next t) (js : List Instr) :
    execAll (is ++ js) s = execAll js t := by
  rw [execAll_append, h]

/-- Output beats outside `EMIT` answer the same state, any number of them (rule R154). -/
theorem execAll_txOutBeats_of_not_emit {s : State} (h : s.p.phase ≠ .emit) (n : Nat) :
    execAll (List.replicate n .txOutBeat) s = .next s := by
  induction n with
  | zero => rfl
  | succ n ih =>
    rw [List.replicate_succ, execAll_cons_of_next (exec_of_not_eventEnabled (i := .txOutBeat) (decide_eq_false h)), ih]

/-- `n` output beats emit the next `n` bytes of the datagram, as far as it goes, and the last byte ends in `IDLE` (rules
R160, R161). -/
theorem execAll_txOutBeats (n : Nat) {s : State} (hemit : s.p.phase = .emit)
    (hcnt : s.p.cnt.toNat ≤ 8 + s.p.len.toNat) :
    ∃ pk, execAll (List.replicate n .txOutBeat) s = .next { s with
        p := pk, sink := s.sink ++ (outBeats ((s.p.datagram s.typeCode).drop s.p.cnt.toNat)).take n } ∧
      (9 + s.p.len.toNat ≤ s.p.cnt.toNat + n → pk.phase = .idle) := by
  induction n generalizing s with
  | zero => exact ⟨s.p, by simp [execAll], by omega⟩
  | succ n ih =>
    rw [List.replicate_succ, execAll_cons_of_next (exec_txOutBeat_of_emit hemit hcnt), Packer.datagram_drop hcnt,
      outBeats_cons, List.take_succ_cons]
    by_cases hlast : s.p.cnt.toNat = 8 + s.p.len.toNat
    · have hend : (s.p.datagram s.typeCode).drop (s.p.cnt.toNat + 1) = [] :=
        (s.p.datagram_drop_eq_nil_iff _ _).mpr (by omega)
      rw [Packer.advance_of_last hlast, execAll_txOutBeats_of_not_emit (by simp) n, hend]
      exact ⟨{ s.p with phase := .idle }, by simp [State.setPacker, State.emitBeat, txOutLast, hlast, outBeats],
        fun _ => rfl⟩
    · have hlt : s.p.cnt.toNat < 8 + s.p.len.toNat := by omega
      have hmore : ((s.p.datagram s.typeCode).drop (s.p.cnt.toNat + 1)).isEmpty = false := by
        rw [← Bool.not_eq_true, List.isEmpty_iff, Packer.datagram_drop_eq_nil_iff]
        omega
      have hsucc := cnt_succ_toNat hlt
      rw [Packer.advance_of_not_last hlast]
      obtain ⟨pk, hexec, hidle⟩ := ih
        (s := (s.emitBeat { last := txOutLast s.p, data := outByte s.typeCode s.p s.p.cnt.toNat }).setPacker
          { s.p with cnt := s.p.cnt + 1 }) hemit (by simp only [State.setPacker_p, hsucc]; omega)
      simp only [State.setPacker_p, hsucc, Packer.datagram_set_cnt] at hexec hidle
      refine ⟨pk, hexec.trans ?_, fun h => hidle (by omega)⟩
      simp [State.setPacker, State.emitBeat, txOutLast, hlast, hmore]

/-! ## A whole packet -/

/-- A command, the beats of a payload that fits and `n` output beats emit the first `n` beats of `pack` (rule R165). -/
theorem execAll_packet {s : State} (hidle : s.p.phase = .idle) (k : PacketType) (q : SeqBits) {bs : List (Bool × Byte)}
    {final : Bool × Byte} {p : List Byte} (hp : delivered (bs ++ [final]) = p) (hfits : p.length ≤ 65535) (n : Nat) :
    ∃ pk, execAll (.txCmd k q :: txPayloadBeats bs final ++ List.replicate n .txOutBeat) s = .next { s with
        p := pk, sink := s.sink ++ (outBeats (pack s.typeCode k (sint32 q) p)).take n } ∧
      (9 + p.length ≤ n → pk.phase = .idle) := by
  subst hp
  obtain ⟨pk, hholds, hload⟩ := execAll_txCmd_payload hidle k q bs final hfits
  obtain ⟨pk', hemit, hend⟩ := execAll_txOutBeats n (s := s.setPacker pk.enterEmit) rfl (Nat.zero_le _)
  have hlen : pk.enterEmit.len.toNat = (delivered (bs ++ [final])).length := hholds.len
  simp only [State.setPacker_p, State.setPacker_typeCode, hholds.datagram_enterEmit, Packer.enterEmit_cnt, hlen,
    BitVec.ofNat_eq_ofNat, BitVec.toNat_zero, List.drop_zero, Nat.zero_add] at hemit hend
  exact ⟨pk', (execAll_append_of_next hload _).trans hemit, hend⟩

/-- `P.OVF` ends at 1 when the payload goes past 65535 bytes (rule R157). -/
theorem Packer.foldl_plBeat_ovf (bs : List (Bool × Byte)) (p : Packer) :
    (bs.foldl (fun pk x => pk.plBeat x.1 false x.2) p).ovf =
      (p.ovf || decide (65535 < p.len.toNat + (delivered bs).length)) := by
  induction bs generalizing p with
  | nil =>
    have hlen := p.len.isLt
    simp [delivered]
    omega
  | cons x bs ih =>
    obtain ⟨keep, b⟩ := x
    rw [List.foldl_cons, ih]
    cases keep with
    | false => rfl
    | true =>
      have hbeat : p.plBeat true false b = p.takeByte b := rfl
      rw [hbeat]
      by_cases hfull : p.len.toNat = 65535
      · simp [Packer.takeByte_of_full hfull, delivered, hfull]
      · rw [Packer.takeByte_of_not_full hfull]
        simp only [len_succ_toNat hfull, delivered, if_true, List.length_cons, Nat.add_assoc, Nat.add_comm 1]

/-- A command and the beats of a payload that does not fit end in `ERR` (rules R156, R157). -/
theorem execAll_oversize {s : State} (hidle : s.p.phase = .idle) (k : PacketType) (q : SeqBits)
    {bs : List (Bool × Byte)} {final : Bool × Byte} (hover : 65535 < (delivered (bs ++ [final])).length) :
    ∃ pk : Packer, pk.phase = .err ∧
      execAll (.txCmd k q :: txPayloadBeats bs final) s = .next (s.setPacker pk) := by
  have hcmd : exec (.txCmd k q) s = .next (s.setPacker (s.p.command k q)) := onPacker_of_phase hidle (·.command k q)
  rw [execAll_cons_of_next hcmd, execAll_payload_endPayload rfl]
  refine ⟨_, ?_, rfl⟩
  have hovf := Packer.foldl_plBeat_ovf (bs ++ [final]) (s.p.command k q)
  rw [Packer.command_ovf, Bool.false_or, decide_eq_true (hover.trans_le (Nat.le_add_left ..))] at hovf
  rw [State.setPacker_p, Packer.endPayload_eq, hovf]
  rfl

/-- Settles O46: `execAll_packet` with as many output beats as the datagram has bytes, and `execAll_oversize`. -/
theorem packerRealisesPack : Obligations.PackerRealisesPack := by
  intro s k q bs final hidle p
  refine ⟨fun hfits => ?_, fun hover => ?_⟩
  · obtain ⟨pk, hexec, hend⟩ := execAll_packet hidle k q rfl hfits (9 + p.length)
    have hall : (outBeats (pack s.typeCode k (sint32 q) p)).length ≤ 9 + p.length := by
      rw [outBeats_length, pack_length]
    rw [List.take_of_length_le hall] at hexec
    exact ⟨_, hexec, hend le_rfl, rfl, rfl⟩
  · obtain ⟨pk, herr, hexec⟩ := execAll_oversize hidle k q hover
    have hnotEmit : (s.setPacker pk).p.phase ≠ .emit := by simp [herr]
    exact ⟨_, hexec, herr, decide_eq_true herr, rfl, execAll_txOutBeats_of_not_emit hnotEmit, _,
      onPacker_of_phase herr Packer.leaveErr, rfl, rfl⟩

/-- Settles O51: what either packer emits is cut from `pack` of the payload, or is nothing. -/
theorem packerOutputDependsOnThePacketOnly : Obligations.PackerOutputDependsOnThePacketOnly := by
  intro s s' k q bs bs' final final' hidle hidle' htc hsame n
  rcases le_or_gt (delivered (bs ++ [final])).length 65535 with hfits | hover
  · obtain ⟨pk, hexec, -⟩ := execAll_packet hidle k q rfl hfits n
    obtain ⟨pk', hexec', -⟩ := execAll_packet hidle' k q hsame.symm hfits n
    exact ⟨_, _, _, hexec, hexec', rfl, by rw [htc]⟩
  · have hwaits : ∀ {t : State} {pk : Packer}, pk.phase = .err →
        execAll (List.replicate n .txOutBeat) (t.setPacker pk) = .next (t.setPacker pk) := fun herr =>
      execAll_txOutBeats_of_not_emit (by simp [herr]) n
    obtain ⟨pk, herr, hexec⟩ := execAll_oversize hidle k q hover
    obtain ⟨pk', herr', hexec'⟩ := execAll_oversize hidle' k q (hsame ▸ hover)
    exact ⟨_, _, [], (execAll_append_of_next hexec _).trans (hwaits herr),
      (execAll_append_of_next hexec' _).trans (hwaits herr'), by simp, by simp⟩

end Sys2Proof.Machine
end

section
/-!
What the unpacker holds of a datagram while it is received, however the bytes are cut into beats (rules R105 to R109,
R186), and with it the loopback of rule R166: the emitted datagram is received as it was packed. O52 is settled here.
-/

namespace Sys2Proof.Machine

/-! ## Parts of a string that grows by one byte -/

theorem take_drop_append_singleton (d : List Byte) (b : Byte) (k n : Nat) :
    ((d ++ [b]).drop k).take n =
      if k ≤ d.length ∧ d.length < k + n then (d.drop k).take n ++ [b] else (d.drop k).take n := by
  rcases le_or_gt k d.length with hk | hk
  · rw [List.drop_append_of_le_length hk, List.take_append, List.length_drop]
    split_ifs with h
    · rw [List.take_of_length_le (l := [b]) (by simp; omega)]
    · rw [show n - (d.length - k) = 0 by omega, List.take_zero, List.append_nil]
  · rw [if_neg (by omega), List.drop_eq_nil_of_le (by simp; omega), List.drop_eq_nil_of_le hk.le]

/-- A register that folds over a part of the string takes the next byte exactly when it falls into that part. -/
theorem foldl_take_drop_append_singleton {σ : Type} (f : σ → Byte → σ) (z : σ) {d : List Byte} (b : Byte) {k n : Nat}
    {c : Prop} [Decidable c] (hc : c ↔ k ≤ d.length ∧ d.length < k + n) :
    (((d ++ [b]).drop k).take n).foldl f z =
      if c then f (((d.drop k).take n).foldl f z) b else ((d.drop k).take n).foldl f z := by
  rw [take_drop_append_singleton]
  by_cases h : c
  · rw [if_pos h, if_pos (hc.mp h), List.foldl_append, List.foldl_cons, List.foldl_nil]
  · rw [if_neg h, if_neg (mt hc.mpr h)]

theorem foldl_ckStep_zero (d : List Byte) : d.foldl ckStep 0 = checksum16 d := foldl_ckStep_checksum16 [] d

/-- A write to the cell after a held string makes it one byte longer. -/
theorem HoldsPayload.append_singleton {u₀ u v : Unpacker} {bs : List Byte} {b : Byte} (h : HoldsPayload u₀ u bs)
    (hv : v.rxbuf = u.rxbuf.write bs.length b) : HoldsPayload u₀ v (bs ++ [b]) := by
  intro j
  rw [hv, readRxbuf_write, h j, List.length_append, List.length_singleton]
  rcases lt_trichotomy j bs.length with hj | rfl | hj
  · rw [if_neg hj.ne, if_pos hj, if_pos (by omega), byteAt_append_of_lt hj]
  · simp [byteAt]
  · rw [if_neg hj.ne', if_neg (by omega), if_neg (by omega)]

/-! ## The unpacker in the middle of a datagram -/

/-- From the start of a datagram in `u₀` the unpacker has received the bytes `d` and stands at `u` (rule R109): each field
holds the bytes of `d` at its offsets, so far as they have arrived. -/
structure Unpacker.Received (u₀ : Unpacker) (d : List Byte) (u : Unpacker) : Prop where
  phase : u.phase = .recv
  cnt : u.cnt.toNat = min d.length (9 + u.len.toNat)
  type : u.type = byteAt d 0
  seq : u.seq = shifted32 ((d.drop 1).take 4)
  len : u.len = shifted16 ((d.drop 5).take 2)
  ckw : u.ckw = shifted16 ((d.drop 7).take 2)
  sum : u.sum = checksum16 ((d.drop 9).take u.len.toNat)
  trail : u.trail = decide (9 + u.len.toNat < d.length)
  payload : HoldsPayload u₀ u ((d.drop 9).take u.len.toNat)

theorem Unpacker.AtStart.received_nil {u : Unpacker} (h : u.AtStart) : u.Received [] u := by
  rw [Unpacker.AtStart] at h
  rw [h]
  exact ⟨rfl, rfl, rfl, rfl, rfl, rfl, rfl, rfl, fun _ => rfl⟩

/-- One byte more (rule R186): in the header it moves a field and the payload stays empty, past it the length stays. -/
theorem Unpacker.Received.takeByte {u₀ u : Unpacker} {d : List Byte} (h : u₀.Received d u) (b : Byte) :
    u₀.Received (d ++ [b]) (u.takeByte b) := by
  obtain ⟨hphase, -, -, htype, hseq, hlen, hckw, hsum, htrail, hcnt, hbuf⟩ := Unpacker.takeByte_fields u b
  have hi := h.cnt
  have htype' : (u.takeByte b).type = byteAt (d ++ [b]) 0 := by
    rw [htype, h.type]
    cases d with
    | nil => exact if_pos (by rw [hi]; simp)
    | cons c d => exact if_neg (by rw [hi]; simp)
  have hseq' : (u.takeByte b).seq = shifted32 (((d ++ [b]).drop 1).take 4) := by
    rw [hseq, h.seq]
    exact (foldl_take_drop_append_singleton shiftIn32 0 b (by omega)).symm
  have hlen' : (u.takeByte b).len = shifted16 (((d ++ [b]).drop 5).take 2) := by
    rw [hlen, h.len]
    exact (foldl_take_drop_append_singleton shiftIn16 0 b (by omega)).symm
  have hckw' : (u.takeByte b).ckw = shifted16 (((d ++ [b]).drop 7).take 2) := by
    rw [hckw, h.ckw]
    exact (foldl_take_drop_append_singleton shiftIn16 0 b (by omega)).symm
  rcases lt_or_ge d.length 9 with hhdr | hpast
  · have hnil : d.drop 9 = [] := List.drop_eq_nil_of_le hhdr.le
    have hnil' : (d ++ [b]).drop 9 = [] := List.drop_eq_nil_of_le (by simp; omega)
    have hsum0 : u.sum = checksum16 [] := by rw [h.sum, hnil, List.take_nil]
    have hpayload := h.payload
    rw [hnil, List.take_nil] at hpayload
    refine ⟨hphase.trans h.phase, ?_, htype', hseq', hlen', hckw', ?_, ?_, ?_⟩
    · rw [hcnt, if_pos (by omega), hi, List.length_append, List.length_singleton]
      omega
    · rw [hsum, if_neg (by omega), hsum0, hnil', List.take_nil]
    · rw [htrail, h.trail, List.length_append, List.length_singleton, decide_eq_false (by omega),
        decide_eq_false (by omega), decide_eq_false (by omega), Bool.or_false]
    · rw [hnil', List.take_nil]
      intro j
      rw [hbuf, if_neg (by omega), hpayload j]
  · have hsame : (u.takeByte b).len = u.len := by rw [hlen, if_neg (by omega)]
    refine ⟨hphase.trans h.phase, ?_, htype', hseq', hlen', hckw', ?_, ?_, ?_⟩ <;> rw [hsame]
    · rw [hcnt, hi, List.length_append, List.length_singleton]
      split_ifs <;> omega
    · rw [hsum, h.sum, ← foldl_ckStep_zero, ← foldl_ckStep_zero]
      exact (foldl_take_drop_append_singleton ckStep 0 b (by omega)).symm
    · rw [htrail, h.trail, ← Bool.decide_or, List.length_append, List.length_singleton, decide_eq_decide]
      omega
    · rw [take_drop_append_singleton]
      split_ifs with hpl
      · refine h.payload.append_singleton ?_
        rw [hbuf, if_pos (by omega)]
        congr 1
        rw [List.length_take, List.length_drop]
        omega
      · intro j
        rw [hbuf, if_neg (by omega), h.payload j]

/-- Beats that are not last append what they deliver. -/
theorem Unpacker.Received.foldl_beat (bs : List (Bool × Byte)) {u₀ u : Unpacker} {d : List Byte}
    (h : u₀.Received d u) : u₀.Received (d ++ delivered bs) (bs.foldl (fun v x => v.beat x.1 false x.2) u) := by
  induction bs generalizing u d with
  | nil => simpa [delivered] using h
  | cons x bs ih =>
    obtain ⟨keep, b⟩ := x
    cases keep with
    | false => exact ih h
    | true =>
      have hcons : d ++ delivered ((true, b) :: bs) = (d ++ [b]) ++ delivered bs := by simp [delivered]
      rw [hcons]
      exact ih (h.takeByte b)

/-- All the beats of a datagram, from its start: the bytes they deliver are received, and then judged (rule R186). -/
theorem execAll_datagram_finish {s : State} (h : s.u.AtStart) (bs : List (Bool × Byte)) (final : Bool × Byte) :
    ∃ u, s.u.Received (delivered (bs ++ [final])) u ∧
      execAll (rxDatagramBeats bs final) s = .next (s.setUnpacker u.finish) := by
  have hreceived := Unpacker.Received.foldl_beat (bs ++ [final]) h.received_nil
  refine ⟨_, hreceived, ?_⟩
  rw [execAll_datagram bs final s h.recv, Unpacker.beat_last, List.foldl_append, List.foldl_cons, List.foldl_nil]

/-! ## The fields of a received datagram -/

theorem shiftIn32_toNat (v : SeqBits) (b : Byte) : (shiftIn32 v b).toNat = v.toNat % 2 ^ 24 * 2 ^ 8 + b.toNat := by
  rw [shiftIn32, toNat_append_eq_mul_add, BitVec.extractLsb'_toNat, Nat.shiftRight_zero]

theorem shiftIn16_toNat (v : Half) (b : Byte) : (shiftIn16 v b).toNat = v.toNat % 2 ^ 8 * 2 ^ 8 + b.toNat := by
  rw [shiftIn16, toNat_append_eq_mul_add, BitVec.extractLsb'_toNat, Nat.shiftRight_zero]

/-- Four bytes shifted in are the number they are the big-endian bytes of (rule R105). -/
theorem shifted32_four (b0 b1 b2 b3 : Byte) : shifted32 [b0, b1, b2, b3] = be32 b0 b1 b2 b3 := by
  apply BitVec.eq_of_toNat_eq
  simp only [shifted32, List.foldl_cons, List.foldl_nil, shiftIn32_toNat, be32, toNat_append_eq_mul_add,
    BitVec.ofNat_eq_ofNat, BitVec.toNat_zero]
  omega

/-- Two bytes shifted in are the number they are the big-endian bytes of (rules R106, R107). -/
theorem shifted16_two (b0 b1 : Byte) : shifted16 [b0, b1] = be16 b0 b1 := by
  apply BitVec.eq_of_toNat_eq
  simp only [shifted16, List.foldl_cons, List.foldl_nil, shiftIn16_toNat, be16, toNat_append_eq_mul_add,
    BitVec.ofNat_eq_ofNat, BitVec.toNat_zero]
  omega

/-- Received whole, the fields laid out in a datagram are the unpacker's registers (rules R150, R186). -/
structure Unpacker.HoldsFields (u₀ u : Unpacker) (t : Byte) (q : SeqBits) (l c : Half) (p : List Byte) : Prop where
  cnt : u.cnt.toNat = 9 + min p.length l.toNat
  type : u.type = t
  seq : u.seq = q
  len : u.len = l
  ckw : u.ckw = c
  sum : u.sum = checksum16 (p.take l.toNat)
  trail : u.trail = decide (l.toNat < p.length)
  payload : HoldsPayload u₀ u (p.take l.toNat)

theorem Unpacker.Received.holdsFields {u₀ u : Unpacker} {t : Byte} {q : SeqBits} {l c : Half} {p : List Byte}
    (h : u₀.Received (encodeFields t q l c p) u) : u₀.HoldsFields u t q l c p := by
  have hseq : u.seq = q := h.seq.trans ((shifted32_four ..).trans (be32_bytes q))
  have hlen : u.len = l := h.len.trans ((shifted16_two ..).trans (be16_bytes l))
  have hckw : u.ckw = c := h.ckw.trans ((shifted16_two ..).trans (be16_bytes c))
  have hcnt := h.cnt
  have htrail := h.trail
  have hsum := h.sum
  have hpayload := h.payload
  rw [hlen] at hcnt htrail hsum hpayload
  rw [encodeFields_length] at hcnt htrail
  exact ⟨by omega, h.type, hseq, hlen, hckw, hsum, by rw [htrail, decide_eq_decide]; omega, hpayload⟩

/-! ## The loopback -/

/-- A datagram whose declared payload is all there is, with its checksum, is delivered (rules R48, R77, R186). -/
theorem Unpacker.HoldsFields.delivers {s : State} {u₀ u : Unpacker} {t : Byte} {q : SeqBits} {l : Half}
    {p : List Byte} (h : u₀.HoldsFields u t q l (checksum16 p) p) (hl : l.toNat = p.length) :
    rxResult? (s.setUnpacker u.finish) = some
        { status := 0, valid := true, trailing := false, type := t, typeKnown := typeKnown s.typeCode t,
          typeClass := typeClass s.typeCode t, seq := q, len := l, cksum := checksum16 p, cksumCalc := checksum16 p } ∧
      ∀ a : BitVec 16, a.toNat < p.length → rxRdData? (s.setUnpacker u.finish) a = some (byteAt p a.toNat) := by
  obtain ⟨hcnt, htype, hseq, hlen, hckw, hsum, htrail, hpayload⟩ := h
  rw [hl, List.take_length] at hsum hpayload
  have hok : statusOf u.cnt l = .ok := by simp [statusOf, hcnt, hl]
  have htrail' : u.trail = false := by rw [htrail, decide_eq_false (by omega)]
  refine ⟨?_, fun a ha => ?_⟩
  · simp [rxResult?, Unpacker.finish, hok, validOf, Status.code, htype, hseq, hlen, hckw, hsum, htrail']
  · have hread : readRxbuf u.rxbuf a.toNat = byteAt p a.toNat := by rw [hpayload, if_pos ha]
    simp [rxRdData?, inReadWindow, Unpacker.finish, hok, hlen, hl, ha, hread]

/-- Settles O52: the sink's bytes are `pack` of the payload, and their fields are what the unpacker delivers. -/
theorem loopbackDeliversThePacket : Obligations.LoopbackDeliversThePacket := by
  intro s k q bs final hidle hstart htc p hfits
  have hlen : (BitVec.ofNat 16 p.length).toNat = p.length := by
    rw [BitVec.toNat_ofNat, Nat.mod_eq_of_lt (by omega)]
  have hpack : pack s.typeCode k (sint32 q) p =
      encodeFields (s.typeCode.code k) q (BitVec.ofNat 16 p.length) (checksum16 p) p := by
    rw [pack, encodePacket, twos32_sint32]
  obtain ⟨pk, hemit, -⟩ := execAll_packet hidle k q rfl hfits (9 + p.length)
  rw [List.take_of_length_le (by rw [outBeats_length, pack_length])] at hemit
  have hne : pack s.typeCode k (sint32 q) p ≠ [] := by
    rw [← List.length_pos_iff, pack_length]
    omega
  have hsplit := List.dropLast_append_getLast hne
  refine ⟨_, _, _, hemit, by rw [hsplit], ?_⟩
  obtain ⟨u, hreceived, hexec⟩ := execAll_datagram_finish hstart (s := { s with p := pk, sink := _ })
    ((pack s.typeCode k (sint32 q) p).dropLast.map fun x => (true, x)) (true, _)
  rw [delivered_append, delivered_map_true] at hreceived
  have hfields := (hsplit.trans hpack ▸ hreceived).holdsFields
  obtain ⟨hresult, hread⟩ := hfields.delivers hlen
  refine ⟨_, hexec, hresult.trans ?_, hread⟩
  simp [typeKnown, typeClass, typeOf?_code s.typeCode htc k]

end Sys2Proof.Machine
end

section
/-!
The three results of `decode` (rules R180, R181): when a byte string is short, when its declared length is more than it has,
and what it decodes to otherwise. O39 and O41 are settled here.
-/

namespace Sys2Proof.Machine

/-- A string shorter than a header is short, whatever its bytes are (rule R181). -/
theorem decodeDatagram_eq_malformedShort_iff (d : List Byte) : decodeDatagram d = .malformedShort ↔ d.length < 9 := by
  unfold decodeDatagram Config.hdrLen
  dsimp only
  split_ifs with hshort hlength
  · simp [hshort]
  · simp [hshort]
  · simp [hshort]

/-- The declared length is judged only when there is a header to declare it (rule R181). -/
theorem decodeDatagram_eq_malformedLength_iff (d : List Byte) :
    decodeDatagram d = .malformedLength ↔
      9 ≤ d.length ∧ d.length - 9 < (be16 (byteAt d 5) (byteAt d 6)).toNat := by
  unfold decodeDatagram Config.hdrLen
  dsimp only
  split_ifs with hshort hlength
  · simp [hshort]
  · simpa [hlength] using hshort
  · simp [hlength]

theorem decodeDatagram_encodeFields_of_length_lt {l : Half} {p : List Byte} (h : p.length < l.toNat) (t : Byte)
    (q : SeqBits) (c : Half) : decodeDatagram (encodeFields t q l c p) = .malformedLength := by
  rw [decodeDatagram_eq_malformedLength_iff, be16_byteAt_encodeFields_len, encodeFields_length]
  omega

/-- Settles O39: a string that is not short is its fields laid out, and decodes by its declared length. -/
theorem decodeOfAnyDatagram : Obligations.DecodeOfAnyDatagram :=
  ⟨fun d => (decodeDatagram_eq_malformedShort_iff d).mpr, fun _ => eq_encodeFields_of_length,
    fun t q _ c _ h => decodeDatagram_encodeFields_of_length_lt h t q c,
    fun t q _ c _ h => decodeDatagram_encodeFields h t q c⟩

/-- Nine bytes have no room for a payload (rule R181). -/
theorem exists_decodeDatagram_eq_ok_iff_of_length_eq_nine {d : List Byte} (h : d.length = 9) :
    (∃ pkt, decodeDatagram d = .ok pkt) ↔ be16 (byteAt d 5) (byteAt d 6) = 0 := by
  simp only [decodeDatagram_eq_ok_iff, exists_and_left, exists_eq, and_true, h]
  have hzero : (0 : Half).toNat = 0 := rfl
  rw [← BitVec.toNat_inj, hzero]
  omega

/-- Settles O41: the conditions of the two malformed results, and the nine-byte case. -/
theorem shortIsJudgedBeforeLength : Obligations.ShortIsJudgedBeforeLength :=
  fun d => ⟨decodeDatagram_eq_malformedShort_iff d, decodeDatagram_eq_malformedLength_iff d,
    exists_decodeDatagram_eq_ok_iff_of_length_eq_nine⟩

end Sys2Proof.Machine
end

section
/-!
The unpacker's events one by one (rules R184 to R197) and the type outputs (rule R189): one stream beat register by register,
the transitions of `U.PHASE`, the read and the release. O23, O27, O25, O26 and O13 are settled here.
-/

namespace Sys2Proof.Machine

/-! ## One stream beat -/

/-- In the phase that enables it an operation updates its agent (rule R185). -/
theorem onUnpacker_of_phase {s : State} {φ : UnpackerPhase} (h : s.u.phase = φ) (f : Unpacker → Unpacker) :
    s.onUnpacker φ f = .next (s.setUnpacker (f s.u)) :=
  if_pos h

/-- A beat that is not last, register by register: a byte that is not kept changes nothing (rules R110, R186). -/
theorem Unpacker.beat_not_last_fields (u : Unpacker) (keep : Bool) (b : Byte) :
    let i := u.cnt.toNat
    let v := u.beat keep false b
    v.phase = u.phase ∧ v.status = u.status ∧ v.valid = u.valid ∧
      v.type = (if keep = true ∧ i = 0 then b else u.type) ∧
      v.seq = (if keep = true ∧ 1 ≤ i ∧ i ≤ 4 then shiftIn32 u.seq b else u.seq) ∧
      v.len = (if keep = true ∧ 5 ≤ i ∧ i ≤ 6 then shiftIn16 u.len b else u.len) ∧
      v.ckw = (if keep = true ∧ 7 ≤ i ∧ i ≤ 8 then shiftIn16 u.ckw b else u.ckw) ∧
      v.sum = (if keep = true ∧ 9 ≤ i ∧ i < 9 + u.len.toNat then ckStep u.sum b else u.sum) ∧
      v.trail = (u.trail || (keep && decide (9 ≤ i ∧ 9 + u.len.toNat ≤ i))) ∧
      v.cnt.toNat = (if keep = true ∧ (i < 9 ∨ i < 9 + u.len.toNat) then i + 1 else i) ∧
      ∀ a, readRxbuf v.rxbuf a =
        if keep = true ∧ 9 ≤ i ∧ i < 9 + u.len.toNat ∧ a = i - 9 then b else readRxbuf u.rxbuf a := by
  cases keep with
  | false => simp [Unpacker.beat]
  | true =>
    obtain ⟨hphase, hstatus, hvalid, htype, hseq, hlen, hckw, hsum, htrail, hcnt, hbuf⟩ := Unpacker.takeByte_fields u b
    have hread : ∀ a, readRxbuf (u.takeByte b).rxbuf a =
        if 9 ≤ u.cnt.toNat ∧ u.cnt.toNat < 9 + u.len.toNat ∧ a = u.cnt.toNat - 9 then b else readRxbuf u.rxbuf a := by
      intro a
      rw [hbuf]
      by_cases hpl : 9 ≤ u.cnt.toNat ∧ u.cnt.toNat < 9 + u.len.toNat
      · rw [if_pos hpl, readRxbuf_write]
        simp [hpl]
      · rw [if_neg hpl, if_neg fun h => hpl ⟨h.1, h.2.1⟩]
    have hbeat : u.beat true false b = u.takeByte b := rfl
    simp only [hbeat, true_and, Bool.true_and]
    exact ⟨hphase, hstatus, hvalid, htype, hseq, hlen, hckw, hsum, htrail, hcnt, hread⟩

/-- Settles O23: the registers by `beat_not_last_fields`; a last beat judges them and writes no other. -/
theorem rxBeatRoutesTheByteAndJudges : Obligations.RxBeatRoutesTheByteAndJudges := by
  intro s keep last b hrecv i
  obtain ⟨hphase, hstatus, hvalid, htype, hseq, hlen, hckw, hsum, htrail, hcnt, hread⟩ :=
    Unpacker.beat_not_last_fields s.u keep b
  rw [exec_rxBeat, onUnpacker_of_phase hrecv]
  refine ⟨_, rfl, rfl, ?_⟩
  cases last with
  | false =>
    exact ⟨htype, hseq, hlen, hckw, hsum, htrail, hcnt, hread, hphase.trans hrecv, hstatus, hvalid⟩
  | true =>
    rw [Unpacker.beat_last]
    exact ⟨htype, hseq, hlen, hckw, hsum, htrail, hcnt, hread, rfl, rfl, rfl⟩

/-! ## The transitions of `U.PHASE` -/

/-- A beat ends in `DONE` when it is last (rule R186). -/
theorem Unpacker.beat_phase_eq (u : Unpacker) (keep last : Bool) (b : Byte) :
    (u.beat keep last b).phase = if last then .done else u.phase := by
  cases last with
  | false => exact u.beat_phase keep b
  | true => rw [Unpacker.beat_last]; rfl

theorem UnpackerPhase.eq_done_of_ne_recv {φ : UnpackerPhase} (h : φ ≠ .recv) : φ = .done := by
  cases φ with
  | recv => exact absurd rfl h
  | done => rfl

theorem UnpackerPhase.eq_recv_of_ne_done {φ : UnpackerPhase} (h : φ ≠ .done) : φ = .recv := by
  cases φ with
  | recv => rfl
  | done => exact absurd rfl h

/-- Settles O27: an operation's update gives the phase of its row, and outside its phase it changes none. -/
theorem unpackerPhaseTransitions : Obligations.UnpackerPhaseTransitions := by
  intro i s t ht
  cases i with
  | txCmd | txPlBeat | txOutBeat | txErrAck =>
    rw [(sameUnpacker_of_exec rfl ht).unpacker]
    cases s.u.phase <;> rfl
  | hdrData | hdrMetadata | hdrAck | hdrFin | hdrUnknown =>
    rw [exec_eq_onUnpacker_of_rowDatagram? rfl] at ht
    obtain ⟨hφ, rfl⟩ | ⟨hφ, rfl⟩ := onUnpacker_cases ht
    · simp [hφ, Unpacker.unpack_phase]
    · rw [UnpackerPhase.eq_done_of_ne_recv hφ]
  | rxBeat keep last b =>
    obtain ⟨hφ, rfl⟩ | ⟨hφ, rfl⟩ := onUnpacker_cases (exec_rxBeat keep last b s ▸ ht)
    · simp [hφ, Unpacker.beat_phase_eq]
    · rw [UnpackerPhase.eq_done_of_ne_recv hφ]
  | rxRelease =>
    obtain ⟨hφ, rfl⟩ | ⟨hφ, rfl⟩ := onUnpacker_cases (exec_rxRelease s ▸ ht)
    · simp [hφ]
    · rw [UnpackerPhase.eq_recv_of_ne_done hφ]
  | rxRead a =>
    have hsame : t.u = s.u := by
      rw [exec_rxRead] at ht
      cases ht
      split_ifs <;> rfl
    rw [hsame]
    cases s.u.phase <;> rfl
  | reset =>
    cases ht
    cases s.u.phase <;> rfl

/-! ## Reads and releases -/

theorem inReadWindow_iff (u : Unpacker) (a : BitVec 16) :
    inReadWindow u a = true ↔ u.phase = .done ∧ u.status = .ok ∧ a.toNat < u.len.toNat := by
  simp [inReadWindow, and_assoc]

/-- Settles O25: `exec_rxRead`, inside the window and outside it. -/
theorem rxReadAnswersWithoutChangingTheBlock : Obligations.RxReadAnswersWithoutChangingTheBlock := by
  intro s a
  rw [← inReadWindow_iff, exec_rxRead]
  refine ⟨fun hin => ?_, fun hout => ?_⟩
  · rw [if_pos hin, rxRdData?, if_pos hin]
    exact ⟨rfl, rfl⟩
  · rw [if_neg hout, rxRdData?, if_neg hout]
    exact ⟨⟨_, rfl⟩, rfl⟩

/-- Settles O26: a release and a reset put the same cleared unpacker over the same RXBUF. -/
theorem rxReleaseClearsTheUnpacker : Obligations.RxReleaseClearsTheUnpacker := by
  intro s hdone
  have hrelease : exec .rxRelease s = .next (s.setUnpacker s.u.release) := onUnpacker_of_phase hdone _
  refine ⟨hrelease, fun t r ht hr => ?_⟩
  cases hrelease.symm.trans ht
  cases (exec_reset s).symm.trans hr
  rfl

/-! ## The type outputs -/

theorem typeKnown_iff {tc : TypeCode} (htc : tc.Injective) (t : Byte) :
    typeKnown tc t = true ↔ ∃ k, t = tc.code k := by
  rw [typeKnown, Option.isSome_iff_exists]
  exact exists_congr fun k => ⟨eq_code_of_typeOf? tc t k, fun h => h ▸ typeOf?_code tc htc k⟩

theorem typeClass_code {tc : TypeCode} (htc : tc.Injective) (k : PacketType) :
    typeClass tc (tc.code k) = k.classCode := by
  rw [typeClass, typeOf?_code tc htc]

theorem typeClass_of_not_typeKnown {tc : TypeCode} {t : Byte} (h : typeKnown tc t = false) : typeClass tc t = 0 := by
  have hnone : tc.typeOf? t = none := Option.isNone_iff_eq_none.mp (Option.isSome_eq_false_iff.mp h)
  rw [typeClass, hnone]

/-- The default codes are the classes themselves (rule R10). -/
theorem code_standard (k : PacketType) : TypeCode.standard.code k = k.classCode.setWidth 8 := by
  cases k <;> rfl

/-- The bytes up to 3 are the default codes, each that of the class in its two low bits. -/
theorem eq_code_standard_iff (t : Byte) (k : PacketType) :
    t = TypeCode.standard.code k ↔ t.toNat ≤ 3 ∧ k.classCode = t.extractLsb' 0 2 := by
  have hk := k.classCode.isLt
  have ht := t.isLt
  rw [code_standard, ← BitVec.toNat_inj, ← BitVec.toNat_inj, BitVec.toNat_setWidth, BitVec.extractLsb'_toNat,
    Nat.shiftRight_zero]
  omega

theorem exists_eq_code_standard_iff (t : Byte) : (∃ k, t = TypeCode.standard.code k) ↔ t.toNat ≤ 3 := by
  simp only [eq_code_standard_iff, exists_and_left]
  exact and_iff_left ⟨.ofClass (t.extractLsb' 0 2), classCode_ofClass _⟩

theorem rxResult?_type_outputs {s : State} {r : RxResult} (h : rxResult? s = some r) :
    r.typeKnown = typeKnown s.typeCode s.u.type ∧ r.typeClass = typeClass s.typeCode s.u.type := by
  unfold rxResult? at h
  split_ifs at h
  cases h
  exact ⟨rfl, rfl⟩

/-- Settles O13: the outputs are `typeKnown` and `typeClass` of the type byte. -/
theorem typeOutputsClassifyTheTypeByte : Obligations.TypeOutputsClassifyTheTypeByte := by
  intro s r hr htc
  obtain ⟨hknown, hclass⟩ := rxResult?_type_outputs hr
  rw [hknown, hclass, typeKnown_iff htc]
  refine ⟨.rfl, fun k hk => by rw [hk, typeClass_code htc], typeClass_of_not_typeKnown, rfl, rfl, rfl, rfl,
    fun hstd => ?_⟩
  rw [hstd] at htc ⊢
  refine ⟨exists_eq_code_standard_iff _, fun ⟨k, hk⟩ => ?_⟩
  rw [← ((eq_code_standard_iff _ k).mp hk).2, hk, typeClass_code htc]

end Sys2Proof.Machine
end

section
/-!
The unpacker realises `decode` and `is_valid` (rules R118, R199, R200): what it holds at the end of a datagram, row by row of
the table of rule R200, and that this is a function of the bytes. O48, O30 and O50 are settled here.
-/

namespace Sys2Proof.Machine

/-! ## Beats and datagrams as one fold -/

/-- A datagram with a byte in every beat, judged at its end (rule R118). -/
theorem Unpacker.unpack_eq_finish (u : Unpacker) (d : List Byte) :
    u.unpack d = ((d.map fun x => (true, x)).foldl (fun v x => v.beat x.1 false x.2) u).finish := by
  induction u, d using Unpacker.unpack.induct with
  | case1 u => rfl
  | case2 u b => rfl
  | case3 u b c rest ih => exact ih

/-- All the beats of a datagram in `RECV`, the last of them as the verdict on what they delivered. -/
theorem execAll_datagram_eq_finish {s : State} (hrecv : s.u.phase = .recv) (bs : List (Bool × Byte))
    (final : Bool × Byte) :
    execAll (rxDatagramBeats bs final) s =
      .next (s.setUnpacker ((bs ++ [final]).foldl (fun v x => v.beat x.1 false x.2) s.u).finish) := by
  rw [execAll_datagram bs final s hrecv, Unpacker.beat_last, List.foldl_append, List.foldl_cons, List.foldl_nil]

theorem Unpacker.AtStart.received {u : Unpacker} (h : u.AtStart) (bs : List (Bool × Byte)) :
    u.Received (delivered bs) (bs.foldl (fun v x => v.beat x.1 false x.2) u) :=
  h.received_nil.foldl_beat bs

/-! ## RXBUF before the payload -/

theorem Unpacker.consumesTo_foldl_beat (bs : List (Bool × Byte)) (u : Unpacker) :
    u.ConsumesTo (bs.foldl (fun v x => v.beat x.1 false x.2) u) := by
  induction bs generalizing u with
  | nil => exact .refl u
  | cons x bs ih => exact (u.consumesTo_beat x.1 false x.2).trans (ih _)

/-- A beat that leaves the count in the header, or at its end, writes no cell. -/
theorem Unpacker.beat_rxbuf_of_cnt_le {u : Unpacker} {keep : Bool} {b : Byte}
    (h : (u.beat keep false b).cnt.toNat ≤ 9) : (u.beat keep false b).rxbuf = u.rxbuf := by
  cases keep with
  | false => rfl
  | true =>
    obtain ⟨-, -, -, -, -, -, -, -, -, hcnt, hbuf⟩ := Unpacker.takeByte_fields u b
    have hle : (u.takeByte b).cnt.toNat ≤ 9 := h
    have hnotPayload : ¬ (9 ≤ u.cnt.toNat ∧ u.cnt.toNat < 9 + u.len.toNat) := by
      rintro ⟨h9, hpl⟩
      rw [if_pos (.inr hpl)] at hcnt
      omega
    exact hbuf.trans (if_neg hnotPayload)

theorem Unpacker.foldl_beat_rxbuf_of_cnt_le (bs : List (Bool × Byte)) {u : Unpacker}
    (h : (bs.foldl (fun v x => v.beat x.1 false x.2) u).cnt.toNat ≤ 9) :
    (bs.foldl (fun v x => v.beat x.1 false x.2) u).rxbuf = u.rxbuf := by
  induction bs generalizing u with
  | nil => rfl
  | cons x bs ih =>
    have hmono := (Unpacker.consumesTo_foldl_beat bs (u.beat x.1 false x.2)).cnt_le
    exact (ih h).trans (Unpacker.beat_rxbuf_of_cnt_le (hmono.trans h))

/-! ## The table of rule R200 -/

theorem statusOf_eq (cnt : Count) (len : Half) :
    statusOf cnt len =
      if cnt.toNat < 9 then .malformedShort else if cnt.toNat < 9 + len.toNat then .malformedLength else .ok := rfl

/-- The first row: fewer than nine bytes. -/
theorem Unpacker.Received.unpackedAs_of_short {u₀ u : Unpacker} {d : List Byte} (h : u₀.Received d u)
    (hshort : d.length < 9) (hbuf : u.rxbuf = u₀.rxbuf) : UnpackedAs d u₀ u.finish := by
  have hcnt : u.cnt.toNat = d.length := by rw [h.cnt]; omega
  have hst : statusOf u.cnt u.len = .malformedShort := by rw [statusOf_eq, if_pos (by omega)]
  have hvalid : validOf (statusOf u.cnt u.len) u.sum u.ckw = false := by rw [hst]; rfl
  have htrail : u.trail = false := by rw [h.trail, decide_eq_false (by omega)]
  have hsum : u.sum = 0 := by rw [h.sum, List.drop_eq_nil_of_le hshort.le, List.take_nil, checksum16_nil]
  rw [UnpackedAs, (decodeDatagram_eq_malformedShort_iff d).mpr hshort]
  exact ⟨rfl, hst, hvalid, htrail, hcnt, h.type, h.seq, h.len, h.ckw, hsum, hbuf⟩

/-- The second row: the declared length is more than what follows. -/
theorem Unpacker.HoldsFields.unpackedAs_of_length_lt {u₀ u : Unpacker} {t : Byte} {q : SeqBits} {l c : Half}
    {p : List Byte} (h : u₀.HoldsFields u t q l c p) (hlt : p.length < l.toNat) :
    UnpackedAs (encodeFields t q l c p) u₀ u.finish := by
  obtain ⟨hcnt, htype, hseq, hlen, hckw, hsum, htrail, hpayload⟩ := h
  have hst : statusOf u.cnt u.len = .malformedLength := by
    rw [statusOf_eq, hlen, if_neg (by omega), if_pos (by omega)]
  have hvalid : validOf (statusOf u.cnt u.len) u.sum u.ckw = false := by rw [hst]; rfl
  rw [List.take_of_length_le hlt.le] at hsum hpayload
  rw [UnpackedAs, decodeDatagram_encodeFields_of_length_lt hlt]
  dsimp only
  rw [be32_byteAt_encodeFields_seq, be16_byteAt_encodeFields_len, be16_byteAt_encodeFields_checksum,
    encodeFields_length]
  exact ⟨rfl, hst, hvalid, htrail.trans (decide_eq_false (by omega)), hcnt.trans (by omega), htype, hseq, hlen, hckw,
    hsum, hpayload⟩

/-- The third row: the declared payload is there. -/
theorem Unpacker.HoldsFields.unpackedAs_of_le_length {u₀ u : Unpacker} {t : Byte} {q : SeqBits} {l c : Half}
    {p : List Byte} (h : u₀.HoldsFields u t q l c p) (hle : l.toNat ≤ p.length) :
    UnpackedAs (encodeFields t q l c p) u₀ u.finish := by
  obtain ⟨hcnt, htype, hseq, hlen, hckw, hsum, htrail, hpayload⟩ := h
  have hst : statusOf u.cnt u.len = .ok := by
    rw [statusOf_eq, hlen, if_neg (by omega), if_neg (by omega)]
  have hvalid : validOf (statusOf u.cnt u.len) u.sum u.ckw = isValid (decodedOf t q l c p) := by
    rw [hst, hsum, hckw]
    rfl
  rw [UnpackedAs, decodeDatagram_encodeFields hle]
  exact ⟨rfl, hst, hvalid, htrail, hcnt.trans (by rw [min_eq_right hle]; rfl), htype, congrArg sint32 hseq, hlen, hckw,
    hsum, hpayload⟩

/-- A datagram received from its start and judged is what the table says, however it is cut into beats. -/
theorem Unpacker.AtStart.unpackedAs {u : Unpacker} (h : u.AtStart) (bs : List (Bool × Byte)) :
    UnpackedAs (delivered bs) u (bs.foldl (fun v x => v.beat x.1 false x.2) u).finish := by
  have hreceived := h.received bs
  rcases lt_or_ge (delivered bs).length 9 with hshort | hlong
  · have hcnt := hreceived.cnt
    exact hreceived.unpackedAs_of_short hshort (Unpacker.foldl_beat_rxbuf_of_cnt_le bs (by omega))
  · rw [eq_encodeFields_of_length hlong] at hreceived ⊢
    rcases lt_or_ge ((delivered bs).drop 9).length (be16 (byteAt (delivered bs) 5) (byteAt (delivered bs) 6)).toNat with
      hlt | hle
    · exact hreceived.holdsFields.unpackedAs_of_length_lt hlt
    · exact hreceived.holdsFields.unpackedAs_of_le_length hle

/-- The payload of a decoded packet is as long as it declares. -/
theorem payload_length_of_decodeDatagram {d : List Byte} {pkt : DecodedPacket} (h : decodeDatagram d = .ok pkt) :
    pkt.payload.length = pkt.payloadLength.toNat := by
  obtain ⟨t, q, l, c, p, -, hle, rfl⟩ := exists_fields_of_decodeDatagram h
  exact List.length_take_of_le hle

/-- A read below the length returns the payload byte (rules R77, R200). -/
theorem rxRdData?_of_unpackedAs {s : State} {d : List Byte} {u₀ : Unpacker} {pkt : DecodedPacket}
    (h : UnpackedAs d u₀ s.u) (hd : decodeDatagram d = .ok pkt) {a : BitVec 16}
    (ha : a.toNat < pkt.payloadLength.toNat) : rxRdData? s a = some (byteAt pkt.payload a.toNat) := by
  rw [UnpackedAs, hd] at h
  obtain ⟨hdone, hok, -, -, -, -, -, hlen, -, -, hpayload⟩ := h
  have hwindow : inReadWindow s.u a = true := (inReadWindow_iff s.u a).mpr ⟨hdone, hok, hlen ▸ ha⟩
  rw [rxRdData?, if_pos hwindow, hpayload, if_pos (by rwa [payload_length_of_decodeDatagram hd])]

/-- Settles O48: the beats' fold, judged, is the table's. -/
theorem unpackerRealisesDecode : Obligations.UnpackerRealisesDecode := by
  intro s bs final hstart d
  have hunpacked := hstart.unpackedAs (bs ++ [final])
  exact ⟨_, execAll_datagram_eq_finish hstart.recv bs final, rfl, hunpacked,
    fun _ hd _ ha => rxRdData?_of_unpackedAs hunpacked hd ha⟩

/-- Settles O30: a header row is its datagram with a byte in every beat. -/
theorem headerRowsCompleteAsDecoded : Obligations.HeaderRowsCompleteAsDecoded := by
  intro s i d hd hstart
  have hunpacked := hstart.unpackedAs (d.map fun x => (true, x))
  rw [delivered_map_true, ← Unpacker.unpack_eq_finish] at hunpacked
  exact ⟨_, (exec_eq_onUnpacker_of_rowDatagram? hd).trans (onUnpacker_of_phase hstart.recv _), rfl, hunpacked⟩

/-! ## The result as a function of the bytes -/

theorem Unpacker.Received.len_eq {u₀ u₀' u u' : Unpacker} {d : List Byte} (h : u₀.Received d u)
    (h' : u₀'.Received d u') : u.len = u'.len :=
  h.len.trans h'.len.symm

theorem Unpacker.Received.cnt_eq {u₀ u₀' u u' : Unpacker} {d : List Byte} (h : u₀.Received d u)
    (h' : u₀'.Received d u') : u.cnt = u'.cnt :=
  BitVec.eq_of_toNat_eq (by rw [h.cnt, h'.cnt, h.len_eq h'])

/-- Everything but RXBUF is the same after the same bytes (rule R199). -/
theorem Unpacker.Received.finish_registers_eq {u₀ u₀' u u' : Unpacker} {d : List Byte} (h : u₀.Received d u)
    (h' : u₀'.Received d u') : { u.finish with rxbuf := [] } = { u'.finish with rxbuf := [] } := by
  have hlen := h.len_eq h'
  have hcnt := h.cnt_eq h'
  have hsum : u.sum = u'.sum := by rw [h.sum, h'.sum, hlen]
  have htrail : u.trail = u'.trail := by rw [h.trail, h'.trail, hlen]
  have hckw : u.ckw = u'.ckw := h.ckw.trans h'.ckw.symm
  simp only [Unpacker.finish, Unpacker.enterDone, h.type, h'.type, h.seq, h'.seq, hlen, hcnt, hsum, htrail, hckw]

/-- A payload byte that has been counted reads as the byte received (rule R53 (j)). -/
theorem Unpacker.Received.readRxbuf_of_lt_cnt {u₀ u : Unpacker} {d : List Byte} (h : u₀.Received d u) {j : Nat}
    (hj : j + 9 < u.cnt.toNat) : readRxbuf u.rxbuf j = byteAt (d.drop 9) j := by
  have hcnt := h.cnt
  rw [h.payload, if_pos (by rw [List.length_take, List.length_drop]; omega), byteAt_take_of_lt (by omega)]

/-- Settles O50: both runs receive the same bytes. -/
theorem unpackerResultDependsOnTheDatagramOnly : Obligations.UnpackerResultDependsOnTheDatagramOnly := by
  intro s s' bs bs' final final' hstart hstart' hsame
  obtain ⟨u, hreceived, hexec⟩ := execAll_datagram_finish hstart bs final
  obtain ⟨u', hreceived', hexec'⟩ := execAll_datagram_finish hstart' bs' final'
  rw [← hsame] at hreceived'
  have hcnt := hreceived.cnt_eq hreceived'
  exact ⟨_, _, hexec, hexec', hreceived.finish_registers_eq hreceived', fun j hj =>
    (hreceived.readRxbuf_of_lt_cnt hj).trans (hreceived'.readRxbuf_of_lt_cnt (hcnt ▸ hj)).symm⟩

end Sys2Proof.Machine
end

section
/-!
When the five conditions of rule R220 are detected and reported (rules R220 to R230): the verdict over a datagram and what a
held result says of it. O28 and O49 are settled here.
-/

namespace Sys2Proof.Machine

/-! ## What writes the verdict -/

/-- A beat that is not last leaves the verdict alone (rule R186). -/
theorem Unpacker.beat_not_last_verdict (u : Unpacker) (keep : Bool) (b : Byte) :
    (u.beat keep false b).status = u.status ∧ (u.beat keep false b).valid = u.valid := by
  obtain ⟨-, hstatus, hvalid, -⟩ := u.beat_not_last_fields keep b
  exact ⟨hstatus, hvalid⟩

/-- An operation keeps the verdict, or ends a datagram or clears the unpacker (rule R230). -/
theorem verdict_eq_or_of_exec {i : Instr} {s t : State} (ht : exec i s = .next t) :
    (t.u.status = s.u.status ∧ t.u.valid = s.u.valid) ∨
      (∃ keep b, i = .rxBeat keep true b) ∨ (rowDatagram? s.typeCode i).isSome = true ∨ i = .rxRelease ∨ i = .reset := by
  cases i with
  | txCmd | txPlBeat | txOutBeat | txErrAck =>
    rw [(sameUnpacker_of_exec rfl ht).unpacker]
    exact .inl ⟨rfl, rfl⟩
  | hdrData | hdrMetadata | hdrAck | hdrFin | hdrUnknown => exact .inr (.inr (.inl rfl))
  | rxBeat keep last b =>
    cases last with
    | true => exact .inr (.inl ⟨keep, b, rfl⟩)
    | false =>
      obtain ⟨-, rfl⟩ | ⟨-, rfl⟩ := onUnpacker_cases (exec_rxBeat keep false b s ▸ ht)
      · exact .inl (s.u.beat_not_last_verdict keep b)
      · exact .inl ⟨rfl, rfl⟩
  | rxRead a =>
    rw [exec_rxRead] at ht
    cases ht
    split_ifs <;> exact .inl ⟨rfl, rfl⟩
  | rxRelease => exact .inr (.inr (.inr (.inl rfl)))
  | reset => exact .inr (.inr (.inr (.inr rfl)))

/-- Settles O28: an operation that does not keep the verdict is one of the four. -/
theorem verdictIsGivenAtTheLastBeatOnly : Obligations.VerdictIsGivenAtTheLastBeatOnly := by
  intro i s t ht hchanged
  refine (verdict_eq_or_of_exec ht).resolve_left ?_
  rintro ⟨hstatus, hvalid⟩
  exact hchanged.elim (· hstatus) (· hvalid)

/-! ## E1, E2 and E3 -/

theorem datagramCondition?_of_recv {s : State} (hrecv : s.u.phase = .recv) : datagramCondition? s = none := by
  simp [datagramCondition?, hrecv]

/-- What a result of `decode` is reported as (rules R221 to R223). -/
def DecodeResult.condition? : DecodeResult → Option Condition
  | .malformedShort => some .malformedShort
  | .malformedLength => some .malformedLength
  | .ok pkt => if isValid pkt then none else some .corrupted

/-- The result held after a datagram reports what `decode` and `is_valid` find in it (rules R200, R220). -/
theorem datagramCondition?_of_unpackedAs {s : State} {d : List Byte} {u₀ : Unpacker} (h : UnpackedAs d u₀ s.u) :
    datagramCondition? s = (decodeDatagram d).condition? := by
  obtain ⟨hdone, htable⟩ := h
  rw [datagramCondition?, if_pos hdone]
  cases hd : decodeDatagram d with
  | malformedShort =>
    simp only [hd] at htable
    obtain ⟨hstatus, -⟩ := htable
    rw [hstatus, DecodeResult.condition?]
  | malformedLength =>
    simp only [hd] at htable
    obtain ⟨hstatus, -⟩ := htable
    rw [hstatus, DecodeResult.condition?]
  | ok pkt =>
    simp only [hd] at htable
    obtain ⟨hok, hvalid, -⟩ := htable
    rw [hok, hvalid, DecodeResult.condition?]

/-- The precedence E1 over E2 over E3 is the order in which `decode` and `is_valid` judge (rule R228). -/
theorem condition?_decodeDatagram (d : List Byte) :
    (decodeDatagram d).condition? =
      if d.length < 9 then some .malformedShort
      else if d.length - 9 < (be16 (byteAt d 5) (byteAt d 6)).toNat then some .malformedLength
      else if checksum16 ((d.drop 9).take (be16 (byteAt d 5) (byteAt d 6)).toNat) = be16 (byteAt d 7) (byteAt d 8) then none
      else some .corrupted := by
  by_cases hshort : d.length < 9
  · rw [(decodeDatagram_eq_malformedShort_iff d).mpr hshort, if_pos hshort, DecodeResult.condition?]
  by_cases hlength : d.length - 9 < (be16 (byteAt d 5) (byteAt d 6)).toNat
  · rw [(decodeDatagram_eq_malformedLength_iff d).mpr ⟨not_lt.mp hshort, hlength⟩, if_neg hshort, if_pos hlength,
      DecodeResult.condition?]
  · rw [(decodeDatagram_eq_ok_iff d _).mpr ⟨by omega, rfl⟩, if_neg hshort, if_neg hlength]
    exact if_congr decide_eq_true_iff rfl rfl

/-! ## E4 -/

theorem typeCondition?_of_recv {s : State} (hrecv : s.u.phase = .recv) : typeCondition? s = none := by
  simp [typeCondition?, hrecv]

/-- A byte without a type is none of the four codes, distinct or not. -/
theorem ne_code_of_typeOf?_eq_none {tc : TypeCode} {t : Byte} (h : tc.typeOf? t = none) (k : PacketType) :
    t ≠ tc.code k := by
  unfold TypeCode.typeOf? at h
  split_ifs at h with hdata hmetadata hack hfin
  cases k with
  | data => exact hdata
  | metadata => exact hmetadata
  | ack => exact hack
  | fin => exact hfin

/-- A type byte is unknown when it is none of the four codes (rules R182, R224). -/
theorem typeKnown_eq_false_iff (tc : TypeCode) (t : Byte) : typeKnown tc t = false ↔ ∀ k, t ≠ tc.code k := by
  rw [typeKnown, Option.isSome_eq_false_iff, Option.isNone_iff_eq_none]
  exact ⟨ne_code_of_typeOf?_eq_none, typeOf?_eq_none⟩

theorem typeCondition?_eq_unknownType_iff_of_done {s : State} (hdone : s.u.phase = .done) :
    typeCondition? s = some .unknownType ↔ ∀ k, s.u.type ≠ s.typeCode.code k := by
  simp [typeCondition?, hdone, typeKnown_eq_false_iff]

theorem typeCondition?_eq_none_iff_of_done {s : State} (hdone : s.u.phase = .done) :
    typeCondition? s = none ↔ ∃ k, s.u.type = s.typeCode.code k := by
  simp [typeCondition?, hdone, typeKnown_eq_false_iff]

/-- Whatever a datagram decodes to, `U.TYPE` is its first byte (rule R200). -/
theorem type_of_unpackedAs {u₀ u : Unpacker} {d : List Byte} (h : UnpackedAs d u₀ u) : u.type = byteAt d 0 := by
  obtain ⟨-, htable⟩ := h
  cases hd : decodeDatagram d with
  | malformedShort | malformedLength =>
    simp only [hd] at htable
    obtain ⟨-, -, -, -, htype, -⟩ := htable
    exact htype
  | ok pkt =>
    simp only [hd] at htable
    obtain ⟨-, -, -, -, htype, -⟩ := htable
    obtain ⟨-, rfl⟩ := (decodeDatagram_eq_ok_iff d pkt).mp hd
    exact htype

/-- Settles O49: what the datagram decodes to gives E1 to E3, its first byte gives E4. -/
theorem conditionsFollowFromTheDatagram : Obligations.ConditionsFollowFromTheDatagram := by
  intro s bs final hstart d
  obtain ⟨t, hexec, hframe, hunpacked, -⟩ := unpackerRealisesDecode s bs final hstart
  have htypeCode : t.typeCode = s.typeCode := by rw [hframe]
  have hdone : t.u.phase = .done := hunpacked.1
  refine ⟨datagramCondition?_of_recv hstart.recv, typeCondition?_of_recv hstart.recv, t, hexec,
    (datagramCondition?_of_unpackedAs hunpacked).trans (condition?_decodeDatagram d), ?_, ?_, ?_⟩
  · rw [typeCondition?_eq_none_iff_of_done hdone, type_of_unpackedAs hunpacked, htypeCode]
  · rw [typeCondition?_eq_unknownType_iff_of_done hdone, type_of_unpackedAs hunpacked, htypeCode]
  · rw [hframe]
    rfl

end Sys2Proof.Machine
end

section
/-!
A reset that is offered first (rule R250), and the operations that end a transaction (rule R254). O10 and O59 are settled
here.
-/

namespace Sys2Proof.Machine

/-! ## A reset offered first -/

theorem decodeWord_rst_high (tc : TypeCode) : decodeWord tc (.rst 1#1) = .ok .reset := rfl

/-- `rst = 1` waits in no state, as `RESET` is enabled in every one (rule R250). -/
theorem offerMoves_rst_high (s : State) : offerMoves s (.rst 1#1) = true :=
  (offerMoves_iff_of_decodeWord_ok (decodeWord_rst_high s.typeCode)).mpr (.inl rfl)

/-- Settles O10: the first offer moves, and `exec_reset` runs on the state without it. -/
theorem resetOfferedFirstGoesFirst : Obligations.ResetOfferedFirstGoesFirst := by
  intro s others hoffers
  have htake : takeOffer s s.offers = some (.rst 1#1, others) := by
    rw [hoffers, takeOffer_cons_of_moves (offerMoves_rst_high s)]
  exact (step_of_decodeWord_ok htake (decodeWord_rst_high s.typeCode)).trans (exec_reset _)

/-! ## The ends of a transaction -/

/-- The last output beat takes the packer to `IDLE` (rule R161). -/
theorem Packer.advance_phase_of_last {p : Packer} (h : txOutLast p = true) : p.advance.phase = .idle := by
  rw [Packer.advance_phase, if_pos (of_decide_eq_true h)]

/-- Settles O59: each of the three updates its own agent to rest, and the other agent rests by the premise. -/
theorem transactionsEndQuiescent : Obligations.TransactionsEndQuiescent := by
  intro s t
  refine ⟨fun hidle hdone ht => ?_, fun hrest herr ht => ?_, fun hrest hemit hlast ht => ?_⟩
  · have hrelease : exec .rxRelease s = .next (s.setUnpacker s.u.release) := onUnpacker_of_phase hdone _
    cases hrelease.symm.trans ht
    exact ⟨hidle, s.u.release_phase, s.u.release_cnt, s.u.release_trail⟩
  · have hack : exec .txErrAck s = .next (s.setPacker s.p.leaveErr) := onPacker_of_phase herr _
    cases hack.symm.trans ht
    exact ⟨s.p.leaveErr_phase, hrest⟩
  · obtain ⟨-, b, -, rfl⟩ := (exec_txOutBeat_cases ht).resolve_right fun hstay => hstay.1 hemit
    exact ⟨Packer.advance_phase_of_last hlast, hrest⟩

end Sys2Proof.Machine
end
